-- ==== Sys2Proof/Config.lean ====
section
/-! DEFINITION. The parameters of the hardware (spec/00_scope.md R9). They are not state (10_state.md R33). -/

namespace Sys2Proof.Config

/-- `W`, the width in bits of a cell, of `rb`, of a queue entry and of the output value (R9, decision D1). -/
def cellWidth : Nat := 64

/-- `ADDR_LIMIT`: a legal cell address `a` satisfies `0 <= a < ADDR_LIMIT` (R9, decision D3). -/
def addrLimit : Nat := 2 ^ (cellWidth - 1)

/-- `INQ_CAPACITY`: the most entries the input queue holds, `none` for unbounded (R9, decision D24). -/
def inqCapacity : Option Nat := none

/-- The two values of `RB_NEG_POLICY` (R9, decision D12). -/
inductive RbNegPolicy where
  /-- `rb` may become negative; only the effective addresses made from it are checked. -/
  | allow
  /-- Opcode 9 raises `AddressOverflow(rb, r)` for a negative result. -/
  | fault
  deriving DecidableEq, Repr, Inhabited

/-- `RB_NEG_POLICY` is `OPEN` in the spec (decision D12, 93_implementation_defined.md U10), so it has no body
here: no proof can see its value, and every claim holds for both (log entry 5). -/
opaque rbNegPolicy : RbNegPolicy

end Sys2Proof.Config
end

