-- ==== Sys2Proof/Word.lean ====
section
/-! DEFINITION. The word of the machine: a signed `W`-bit value, held as the mathematical integer (`Int`) the spec
computes with, and the check that it fits (spec/00_scope.md R10; log entry 1). -/

namespace Sys2Proof

/-- `inW(v)`: `v` is representable in `W` two's-complement bits (R10). -/
abbrev inW (v : Int) : Prop :=
  -(2 : Int) ^ (Config.cellWidth - 1) ≤ v ∧ v ≤ (2 : Int) ^ (Config.cellWidth - 1) - 1

/-- `0 <= a < ADDR_LIMIT`: `a` is a legal cell address (20_memory.md R41). -/
abbrev legalAddr (a : Int) : Prop := 0 ≤ a ∧ a < (Config.addrLimit : Int)

end Sys2Proof
end

