-- ==== Sys2Proof/Param.lean ====
section
/-! DEFINITION. Slots, mode digits and formed parameters (spec/00_scope.md R15, R16; 30_encoding.md R66, R68). -/

namespace Sys2Proof

/-- Slot k, the k-th cell after the instruction word together with mode digit k (R16). -/
inductive Slot where
  | one
  | two
  | three
  deriving DecidableEq, Repr

/-- The three legal addressing modes (30_encoding.md R66). -/
inductive Mode where
  | position
  | immediate
  | relative
  deriving DecidableEq, Repr

/-- A formed parameter: "a tagged value" (00_scope.md R15, 30_encoding.md R68), carrying the raw operand. -/
inductive Param where
  | position (addr : Int)
  | immediate (value : Int)
  | relative (offset : Int)
  deriving DecidableEq, Repr

/-- The mode digit a parameter was formed with. -/
def Param.mode : Param → Mode
  | .position _ => .position
  | .immediate _ => .immediate
  | .relative _ => .relative

/-- The raw operand a parameter was formed from (30_encoding.md R67). -/
def Param.raw : Param → Int
  | .position a => a
  | .immediate v => v
  | .relative o => o

end Sys2Proof
end

