-- ==== Sys2Proof/Errors.lean ====
section
/-! DEFINITION. The seven error kinds and what each records (spec/60_exceptions.md R170). -/

namespace Sys2Proof

/-- The names of the error kinds (R170, column "kind"). -/
inductive ErrorKind where
  | unknownOpcode
  | unknownMode
  | invalidWriteMode
  | inputExhausted
  | addressOverflow
  | noOutputProduced
  | arithmeticOverflow
  deriving DecidableEq, Repr

/-- The use that produced an address: a slot, a jump target, the pc advance, or `rb` itself
(20_memory.md R44, 60_exceptions.md R170). -/
inductive AddrUse where
  | slot (k : Slot)
  | target
  | pcAdvance
  | rb
  deriving DecidableEq, Repr

/-- The `info` field of a fault record (R170, column "info recorded"). -/
inductive ErrorInfo where
  | nothing
  | opcode (op : Int)
  | modeDigit (k : Slot) (digit : Int)
  | writeSlot (k : Slot)
  | address (use : AddrUse) (value : Int)
  | arithmetic (op : Int) (result : Int)
  deriving DecidableEq, Repr

/-- One raised error, kind and detail together, so that no raise can pair a kind with another kind's detail. -/
inductive MachineError where
  | unknownOpcode (op : Int)
  | unknownMode (k : Slot) (digit : Int)
  | invalidWriteMode (k : Slot)
  | inputExhausted
  | addressOverflow (use : AddrUse) (value : Int)
  | noOutputProduced
  | arithmeticOverflow (op : Int) (result : Int)
  deriving DecidableEq, Repr

end Sys2Proof
end

