-- ==== Sys2Proof/Syntax.lean ====
section
/-! DEFINITION. The instructions: one constructor per row of spec/opcode_table.json (30_encoding.md R70).
`m1 m2 m3` are the legal mode digits of slots the opcode does not use; they have no effect (R72) and are kept
so that the encoder gives the instruction word back. -/

namespace Sys2Proof

/-- The ten instructions, each with its parameters in slot order. -/
inductive Instr where
  /-- Opcode 1, `add` (42_arith.md R110). -/
  | add (a b dst : Param)
  /-- Opcode 2, `mul` (42_arith.md R111). -/
  | mul (a b dst : Param)
  /-- Opcode 3, `in` (43_io.md R120). -/
  | input (dst : Param) (m2 m3 : Mode)
  /-- Opcode 4, `out` (43_io.md R121). -/
  | output (a : Param) (m2 m3 : Mode)
  /-- Opcode 5, `jt` (44_jump.md R130). -/
  | jt (a target : Param) (m3 : Mode)
  /-- Opcode 6, `jf` (44_jump.md R131). -/
  | jf (a target : Param) (m3 : Mode)
  /-- Opcode 7, `lt` (45_compare.md R140). -/
  | lt (a b dst : Param)
  /-- Opcode 8, `eq` (45_compare.md R141). -/
  | eq (a b dst : Param)
  /-- Opcode 9, `arb` (46_relbase.md R150). -/
  | arb (a : Param) (m2 m3 : Mode)
  /-- Opcode 99, `hlt` (47_halt.md R160). -/
  | hlt (m1 m2 m3 : Mode)
  deriving DecidableEq, Repr

/-- The parameters of the slots the instruction uses, in slot order (30_encoding.md R70). -/
def Instr.params : Instr → List Param
  | .add a b dst => [a, b, dst]
  | .mul a b dst => [a, b, dst]
  | .input dst _ _ => [dst]
  | .output a _ _ => [a]
  | .jt a target _ => [a, target]
  | .jf a target _ => [a, target]
  | .lt a b dst => [a, b, dst]
  | .eq a b dst => [a, b, dst]
  | .arb a _ _ => [a]
  | .hlt _ _ _ => []

/-- The instruction's width in cells: 1 plus its operand count (30_encoding.md R60, R70). -/
def Instr.width (i : Instr) : Nat := 1 + i.params.length

end Sys2Proof
end

