-- ==== Sys2Proof/WellFormed.lean ====
section
/-! DEFINITION. Well-formed instructions: every raw operand fits a cell (spec/30_encoding.md R67). Modes are legal
by their type; an immediate write target is well-formed, since it "decodes without error" (R71). -/

namespace Sys2Proof

/-- Every raw operand of the instruction is a signed `W`-bit value (R67, 00_scope.md R10). -/
abbrev Instr.WellFormed (i : Instr) : Prop := ∀ p ∈ i.params, inW p.raw

end Sys2Proof
end

