-- ==== Sys2Proof/Decode.lean ====
section
/-! DEFINITION. The decoder (spec/30_encoding.md): the opcode/mode splitter, eager parameter formation, dispatch on
the opcode, and the encoder written from the same tables. -/

namespace Sys2Proof

/-- `dig(w, i)`, decimal digit `i` of `w`, by truncated division (00_scope.md R10, R11). -/
def decDigit (w : Int) (i : Nat) : Int := (w.tdiv (10 ^ i)).tmod 10

/-- What the splitter takes an instruction word apart into (30_encoding.md R61). -/
structure WordFields where
  opcode : Int
  mode1 : Int
  mode2 : Int
  mode3 : Int
  deriving DecidableEq, Repr

/-- `decode(w)` of the spec, the opcode/mode splitter: it never errors (30_encoding.md R61, R64). -/
def splitWord (w : Int) : WordFields where
  opcode := w.tmod 100
  mode1 := decDigit w 2
  mode2 := decDigit w 3
  mode3 := decDigit w 4

/-- The meaning of a mode digit, `none` for an illegal one (30_encoding.md R66). -/
def modeOfDigit (d : Int) : Option Mode :=
  if d = 0 then some .position
  else if d = 1 then some .immediate
  else if d = 2 then some .relative
  else none

/-- A parameter from its mode and raw operand (30_encoding.md R67, R68). -/
def paramOf (m : Mode) (raw : Int) : Param :=
  match m with
  | .position => .position raw
  | .immediate => .immediate raw
  | .relative => .relative raw

/-- Forming one slot's parameter: an illegal digit raises `UnknownMode(k, digit)` (30_encoding.md R68). -/
def formParam (k : Slot) (digit : Int) (raw : Int) : Except MachineError Param :=
  match modeOfDigit digit with
  | some m => .ok (paramOf m raw)
  | none => .error (.unknownMode k digit)

/-- Dispatch on the opcode after all three slots are formed (30_encoding.md R70, R73; 41_step.md R94, R100). -/
def dispatchOpcode (op : Int) (p1 p2 p3 : Param) : Except MachineError Instr :=
  if op = 1 then .ok (.add p1 p2 p3)
  else if op = 2 then .ok (.mul p1 p2 p3)
  else if op = 3 then .ok (.input p1 p2.mode p3.mode)
  else if op = 4 then .ok (.output p1 p2.mode p3.mode)
  else if op = 5 then .ok (.jt p1 p2 p3.mode)
  else if op = 6 then .ok (.jf p1 p2 p3.mode)
  else if op = 7 then .ok (.lt p1 p2 p3)
  else if op = 8 then .ok (.eq p1 p2 p3)
  else if op = 9 then .ok (.arb p1 p2.mode p3.mode)
  else if op = 99 then .ok (.hlt p1.mode p2.mode p3.mode)
  else .error (.unknownOpcode op)

/-- The decoder on the instruction word and the three raw operands: split, form slots 1, 2, 3, then dispatch
(41_step.md R94, steps 1 to 3). Total on any four integers; what it does not accept it rejects by name. -/
def decode (w raw1 raw2 raw3 : Int) : Except MachineError Instr := do
  let f := splitWord w
  let p1 ← formParam .one f.mode1 raw1
  let p2 ← formParam .two f.mode2 raw2
  let p3 ← formParam .three f.mode3 raw3
  dispatchOpcode f.opcode p1 p2 p3

/-- The decoder on a run of cells: a missing cell reads 0, and cells past the fourth are not looked at
(20_memory.md R45, 30_encoding.md R68). -/
def decodeCells (cells : List Int) : Except MachineError Instr :=
  decode (cells.getD 0 0) (cells.getD 1 0) (cells.getD 2 0) (cells.getD 3 0)

/-- The mode digit of a legal mode (30_encoding.md R66). -/
def Mode.digit : Mode → Int
  | .position => 0
  | .immediate => 1
  | .relative => 2

/-- The instruction word `C B A O O` from its opcode and the modes of slots 1, 2, 3 (30_encoding.md R69, R75). -/
def encodeWord (op : Int) (m1 m2 m3 : Mode) : Int :=
  op + 100 * m1.digit + 1000 * m2.digit + 10000 * m3.digit

/-- The cells of an instruction: its word, then the raw operands of the slots it uses (30_encoding.md R69, R70). -/
def encode : Instr → List Int
  | .add a b dst => [encodeWord 1 a.mode b.mode dst.mode, a.raw, b.raw, dst.raw]
  | .mul a b dst => [encodeWord 2 a.mode b.mode dst.mode, a.raw, b.raw, dst.raw]
  | .input dst m2 m3 => [encodeWord 3 dst.mode m2 m3, dst.raw]
  | .output a m2 m3 => [encodeWord 4 a.mode m2 m3, a.raw]
  | .jt a target m3 => [encodeWord 5 a.mode target.mode m3, a.raw, target.raw]
  | .jf a target m3 => [encodeWord 6 a.mode target.mode m3, a.raw, target.raw]
  | .lt a b dst => [encodeWord 7 a.mode b.mode dst.mode, a.raw, b.raw, dst.raw]
  | .eq a b dst => [encodeWord 8 a.mode b.mode dst.mode, a.raw, b.raw, dst.raw]
  | .arb a m2 m3 => [encodeWord 9 a.mode m2 m3, a.raw]
  | .hlt m1 m2 m3 => [encodeWord 99 m1 m2 m3]

/-- Cell `k` of a row of bits numbered as the host numbers them: bits `64k+63 .. 64k`, read as a signed value
(10_state.md R30 with `W = 64`; log entry 16). The bits of `w` at and above `nbits` count as 0. -/
def cellOfBits (nbits w k : Nat) : Int :=
  let u := (w % 2 ^ nbits) / 2 ^ (Config.cellWidth * k) % 2 ^ Config.cellWidth
  if u < 2 ^ (Config.cellWidth - 1) then (u : Int) else (u : Int) - 2 ^ Config.cellWidth

/-- The four cells the decoder reads, from a row of bits. -/
def cellsOfBits (nbits w : Nat) : List Int :=
  [cellOfBits nbits w 0, cellOfBits nbits w 1, cellOfBits nbits w 2, cellOfBits nbits w 3]

/-- The instruction the decoder reads from the bits `w` (the host's question). -/
def decodeTableWord (nbits w : Nat) : Option Instr :=
  match decodeCells (cellsOfBits nbits w) with
  | .ok i => some i
  | .error _ => none

end Sys2Proof
end

