-- ==== Sys2Proof/Machine/State.lean ====
section
/-! DEFINITION. The whole state of one instance (spec/10_state.md), as plain data, and its value after reset. -/

namespace Sys2Proof.Machine

/-- The growable memory (20_memory.md R40, R41): its length `L` and its non-zero cells by address. Canonical form:
addresses strictly rising, no zero value, every address below `len` (`Memory.wf`, log entry 15). -/
structure Memory where
  /-- `L`, the number of allocated cells. -/
  len : Nat
  /-- The allocated cells that do not hold 0. -/
  cells : List (Nat × Int)
  deriving DecidableEq, Repr

/-- The `FAULT` record (10_state.md R28, 60_exceptions.md R170). -/
structure FaultRecord where
  kind : ErrorKind
  code : Nat
  /-- The address of the faulting instruction. -/
  pc : Nat
  info : ErrorInfo
  deriving DecidableEq, Repr

/-- What one `step` call returns to the host (41_step.md R91). -/
inductive Status where
  /-- An output instruction executed and produced `v`. -/
  | ready (v : Int)
  /-- The halt instruction executed; `v` is the last output. -/
  | halted (v : Int)
  /-- The step aborted with an error. -/
  | error (kind : ErrorKind) (code : Nat) (info : ErrorInfo)
  deriving DecidableEq, Repr

/-- The complete state of one instance (10_state.md, opening). -/
structure State where
  /-- `mem` and `L` (R30, R31). -/
  mem : Memory
  /-- `pc`, the program counter (R21). -/
  pc : Nat
  /-- `rb`, the relative base (R25). -/
  rb : Int
  /-- `INQ`, the input queue, front first (R26). -/
  inq : List Int
  /-- `lastOut`, the last output (R27). -/
  lastOut : Option Int
  /-- `FAULT`, the fault record (R28). -/
  fault : Option FaultRecord
  /-- The model's own field, not the spec's (log entry 2): the `Status` the last executed instruction returned to
  the host, `none` where it returned none and the `step` call goes on (41_step.md R91, R93). -/
  status : Option Status
  deriving DecidableEq, Repr

/-- The ways the machine stops that the spec describes as neither a next state nor a recorded error: there are none.
Every error of 60_exceptions.md R170 is recorded in `FAULT`, a next state (log entry 3). No constructor, so nothing
raises one. -/
inductive Fault where
  deriving DecidableEq, Repr

/-- The requests the model gives no meaning. -/
inductive Refusal where
  /-- Raised by `exec`'s arm of an instruction that has no meaning yet: none is left. Safe. -/
  | notModelled (mnemonic : String)
  /-- Raised by `step` on an instance whose `FAULT` is set: "every later `step` is refused" (60_exceptions.md R173).
  Safe. -/
  | faulted
  /-- Raised by `addInput` on a full bounded queue (41_step.md R99). Safe. -/
  | queueFull
  /-- Raised by `construct` and `addInput`, and so by `runSingle` and the ring's setup, on a value that does not fit
  `W` bits: the host "must give values that fit" (60_exceptions.md R188). DESIGN CHOICE (log entry 18). Safe. -/
  | valueOutOfRange
  /-- Raised by `construct`, and so by `runSingle` and the ring's setup, on an image with more cells than there are
  addresses (20_memory.md R41). DESIGN CHOICE (log entry 18). Safe. -/
  | imageTooLong
  /-- Raised by the ring protocol's setup on no phase settings: there is no instance 0 to seed
  (60_exceptions.md R182). Safe. -/
  | emptyRing
  deriving DecidableEq, Repr

/-- The machine right after construction from the empty program, the state the spec gives with nothing placed in
memory (10_state.md R35, 70_reset_and_hazards.md R200, R202). -/
def State.reset : State where
  mem := ⟨0, []⟩
  pc := 0
  rb := 0
  inq := []
  lastOut := none
  fault := none
  status := none

end Sys2Proof.Machine
end

