-- ==== Sys2Proof/Machine/Ops.lean ====
section
/-! DEFINITION. The named operations over memory and registers, fetching an instruction, taking an error, and the
commit (spec/20_memory.md, 41_step.md, 60_exceptions.md). -/

namespace Sys2Proof.Machine

/-- The three outcomes of a step of this machine. -/
abbrev Outcome := Host.Outcome State Fault Refusal

/-- The value listed for address `a`: an address that is not listed holds 0. -/
def lookupCell : List (Nat × Int) → Nat → Int
  | [], _ => 0
  | (b, v) :: rest, a => if b = a then v else lookupCell rest a

/-- List `v` for address `a` in a list sorted by address. -/
def insertCell : List (Nat × Int) → Nat → Int → List (Nat × Int)
  | [], a, v => [(a, v)]
  | (b, u) :: rest, a, v =>
    if a < b then (a, v) :: (b, u) :: rest
    else if a = b then (a, v) :: rest
    else (b, u) :: insertCell rest a v

/-- Set the cell at `a` to `v`, keeping the list canonical: writing 0 removes the entry. -/
def setCell (cells : List (Nat × Int)) (a : Nat) (v : Int) : List (Nat × Int) :=
  if v = 0 then cells.filter (fun e => e.1 ≠ a) else insertCell cells a v

/-- The canonical form of memory: addresses strictly rising, no entry equal to the 0 an unlisted cell reads as, and
every entry allocated. -/
abbrev Memory.wf (m : Memory) : Prop :=
  m.cells.Pairwise (fun x y => x.1 < y.1) ∧ ∀ e ∈ m.cells, e.2 ≠ 0 ∧ e.1 < m.len

/-- `MemRead(a, 1)`: `mem[a]` if `a < L`, and 0 otherwise; nothing changes (20_memory.md R42). -/
def Memory.read (m : Memory) (a : Nat) : Int := if a < m.len then lookupCell m.cells a else 0

/-- `FetchRead(i)`: `mem[i]` if `i < L`, and 0 otherwise; it never errors (20_memory.md R45). -/
def Memory.fetch (m : Memory) (i : Nat) : Int := if i < m.len then lookupCell m.cells i else 0

/-- Append zero cells until the length is at least `n` (20_memory.md R43): a new cell holds 0, whatever the list may
say of an address past the end. -/
def Memory.growTo (m : Memory) (n : Nat) : Memory :=
  if m.len < n then ⟨n, m.cells.filter (fun e => e.1 < m.len)⟩ else m

/-- `MemWrite(a, 1, v)`: zero-fill up to and including `a` where `a` is past the end, then set the cell
(20_memory.md R43). -/
def Memory.write (m : Memory) (a : Nat) (v : Int) : Memory :=
  ⟨(m.growTo (a + 1)).len, setCell (m.growTo (a + 1)).cells a v⟩

/-- The non-zero cells of a program image whose first cell has address `start`. -/
def imageCells (start : Nat) : List Int → List (Nat × Int)
  | [] => []
  | v :: rest => if v = 0 then imageCells (start + 1) rest else (start, v) :: imageCells (start + 1) rest

/-- A fresh copy of a program image: `L = n` (20_memory.md R56, 70_reset_and_hazards.md R200). -/
def Memory.ofImage (program : List Int) : Memory := ⟨program.length, imageCells 0 program⟩

/-- The numeric code of an error kind (60_exceptions.md R170). -/
def errorCode : ErrorKind → Nat
  | .unknownOpcode => 1
  | .unknownMode => 2
  | .invalidWriteMode => 3
  | .inputExhausted => 4
  | .addressOverflow => 5
  | .noOutputProduced => 6
  | .arithmeticOverflow => 7

/-- The kind of a raised error (60_exceptions.md R170). -/
def errorKind : MachineError → ErrorKind
  | .unknownOpcode _ => .unknownOpcode
  | .unknownMode _ _ => .unknownMode
  | .invalidWriteMode _ => .invalidWriteMode
  | .inputExhausted => .inputExhausted
  | .addressOverflow _ _ => .addressOverflow
  | .noOutputProduced => .noOutputProduced
  | .arithmeticOverflow _ _ => .arithmeticOverflow

/-- The detail recorded with a raised error (60_exceptions.md R170, column "info recorded"). -/
def errorInfo : MachineError → ErrorInfo
  | .unknownOpcode op => .opcode op
  | .unknownMode k d => .modeDigit k d
  | .invalidWriteMode k => .writeSlot k
  | .inputExhausted => .nothing
  | .addressOverflow use v => .address use v
  | .noOutputProduced => .nothing
  | .arithmeticOverflow op r => .arithmetic op r

/-- The state after an error: `FAULT` records it with the address of the faulting instruction, the host is told,
and nothing else changes (60_exceptions.md R171, R172; 41_step.md R95). -/
def errorState (e : MachineError) (s : State) : State :=
  { s with
    fault := some ⟨errorKind e, errorCode (errorKind e), s.pc, errorInfo e⟩
    status := some (.error (errorKind e) (errorCode (errorKind e)) (errorInfo e)) }

/-- Taking an error, the machine's one exception entry (60_exceptions.md R171, R172). There is no return from it:
"The core has no return-from-trap instruction" (R173). -/
def raise (e : MachineError) (s : State) : Outcome := .next (errorState e s)

/-- The end of an instruction's body on `s`: the committed state, or the error taken from `s` itself, of which nothing
was committed (41_step.md R94, R95). -/
def finish (s : State) : Except MachineError State → Outcome
  | .ok t => .next t
  | .error e => raise e s

/-- `CheckAddr(a, use)` (20_memory.md R44). -/
def checkAddr (a : Int) (use : AddrUse) : Except MachineError Nat :=
  if legalAddr a then .ok a.toNat else .error (.addressOverflow use a)

/-- `NextPc(n)`, computed exactly and checked (41_step.md R101). -/
def nextPc (s : State) (n : Nat) : Except MachineError Nat := checkAddr ((s.pc : Int) + n) .pcAdvance

/-- The commit of an instruction that only moves `pc` and lets the step go on (41_step.md R95). -/
def State.continueAt (s : State) (n : Nat) : State := { s with pc := n, status := none }

/-- The commit of an instruction that writes one cell (41_step.md R95). -/
def State.storeAt (s : State) (d : Nat) (v : Int) : State := { s with mem := s.mem.write d v }

/-- `INQ.pop()`: the front entry and the rest, or `InputExhausted` (43_io.md R120). -/
def popInput (s : State) : Except MachineError (Int × List Int) :=
  match s.inq with
  | [] => .error .inputExhausted
  | v :: rest => .ok (v, rest)

/-- Fetch the instruction word and the three raw operands at `pc` and decode them (41_step.md R94, steps 1 to 3). -/
def fetchDecode (s : State) : Except MachineError Instr :=
  decode (s.mem.fetch s.pc) (s.mem.fetch (s.pc + 1)) (s.mem.fetch (s.pc + 2)) (s.mem.fetch (s.pc + 3))

/-- Write a run of cells from address `a` on, as a program image places them; a cell past the last address is not
written. -/
def Memory.placeCells (m : Memory) (a : Nat) : List Int → Memory
  | [] => m
  | v :: rest => (if a < Config.addrLimit then m.write a v else m).placeCells (a + 1) rest

/-- `s` with the instruction of bits `w` in the four cells the decoder reads at `pc`, and able to step: a recorded
error would refuse the step (60_exceptions.md R173), so none is recorded (log entry 16). -/
def placeTableWord (s : State) (nbits w : Nat) : State :=
  { s with mem := s.mem.placeCells s.pc (cellsOfBits nbits w), fault := none }

end Sys2Proof.Machine
end

