-- ==== Sys2Proof/Machine/Flags.lean ====
section
/-! DEFINITION. The core has no flags (spec/10_state.md R24). What stands in their place: the cell value of a
comparison's result, and the overflow check of an exact result. -/

namespace Sys2Proof.Machine

/-- A comparison's result as the cell value 1 or 0 (10_state.md R24, 45_compare.md R140, R141). -/
def boolCell (b : Bool) : Int := if b then 1 else 0

/-- An exact result narrowed to a cell: outside `inW` it raises `ArithmeticOverflow(op, r)` (42_arith.md R112). -/
def narrow (op r : Int) : Except MachineError Int :=
  if inW r then .ok r else .error (.arithmeticOverflow op r)

end Sys2Proof.Machine
end

