-- ==== Sys2Proof/Machine/Operands.lean ====
section
/-! DEFINITION. The addressing-mode resolver (spec/40_addressing.md): every operand form, read and write. -/

namespace Sys2Proof.Machine

/-- `resolve(P)`, the read path, on the `rb` and memory of the instruction's start (R80, R83, R84). -/
def resolve (s : State) (k : Slot) : Param → Except MachineError Int
  | .position a => do
    let n ← checkAddr a (.slot k)
    .ok (s.mem.read n)
  | .immediate v => .ok v
  | .relative o => do
    let n ← checkAddr (s.rb + o) (.slot k)
    .ok (s.mem.read n)

/-- `write_target(P)`, the write-address path: it reads no memory and writes nothing (R81). -/
def writeTarget (s : State) (k : Slot) : Param → Except MachineError Nat
  | .position a => checkAddr a (.slot k)
  | .immediate _ => .error (.invalidWriteMode k)
  | .relative o => checkAddr (s.rb + o) (.slot k)

end Sys2Proof.Machine
end

