-- ==== Sys2Proof/Machine/Arith.lean ====
section
/-! DEFINITION. `add` and `mul` (spec/42_arith.md), over the three-slot body that the comparisons share. -/

namespace Sys2Proof.Machine

/-- The body of format F3 (30_encoding.md R69): resolve slots 1 and 2, take slot 3 as the write target, compute the
result with its own check, then the next pc, then commit (41_step.md R94, R95). -/
def threeSlot (result : Int → Int → Except MachineError Int) (a b dst : Param) (s : State) :
    Except MachineError State := do
  let x ← resolve s .one a
  let y ← resolve s .two b
  let d ← writeTarget s .three dst
  let r ← result x y
  let n ← nextPc s 4
  .ok ((s.storeAt d r).continueAt n)

/-- `add`, opcode 1 (R110). -/
def execAdd (a b dst : Param) (s : State) : Outcome :=
  finish s (threeSlot (fun x y => narrow 1 (x + y)) a b dst s)

/-- `mul`, opcode 2 (R111). -/
def execMul (a b dst : Param) (s : State) : Outcome :=
  finish s (threeSlot (fun x y => narrow 2 (x * y)) a b dst s)

end Sys2Proof.Machine
end

