-- ==== Sys2Proof/Machine/Compare.lean ====
section
/-! DEFINITION. `lt` and `eq` (spec/45_compare.md). -/

namespace Sys2Proof.Machine

/-- `lt`, opcode 7: a signed comparison (R140). -/
def execLt (a b dst : Param) (s : State) : Outcome :=
  finish s (threeSlot (fun x y => .ok (boolCell (decide (x < y)))) a b dst s)

/-- `eq`, opcode 8 (R141). -/
def execEq (a b dst : Param) (s : State) : Outcome :=
  finish s (threeSlot (fun x y => .ok (boolCell (decide (x = y)))) a b dst s)

end Sys2Proof.Machine
end

