-- ==== Sys2Proof/Machine/Halt.lean ====
section
/-! DEFINITION. `hlt` (spec/47_halt.md). -/

namespace Sys2Proof.Machine

/-- The body of `hlt`: `pc` stays at the halt, and a halt before any output errors (R160). -/
def haltBody (s : State) : Except MachineError State :=
  match s.lastOut with
  | none => .error .noOutputProduced
  | some v => .ok { s with status := some (.halted v) }

/-- `hlt`, opcode 99 (R160). -/
def execHlt (s : State) : Outcome := finish s (haltBody s)

end Sys2Proof.Machine
end

