-- ==== Sys2Proof/Machine/InOut.lean ====
section
/-! DEFINITION. `in` and `out` (spec/43_io.md). -/

namespace Sys2Proof.Machine

/-- The body of `in`: the destination is checked before the queue (R120). -/
def inputBody (dst : Param) (s : State) : Except MachineError State := do
  let d ← writeTarget s .one dst
  let q ← popInput s
  let n ← nextPc s 2
  .ok { (s.storeAt d q.1).continueAt n with inq := q.2 }

/-- `in`, opcode 3 (R120). -/
def execInput (dst : Param) (s : State) : Outcome := finish s (inputBody dst s)

/-- The body of `out`: the step returns `Ready(v)` with `pc` already advanced (R121, 41_step.md R96). -/
def outputBody (a : Param) (s : State) : Except MachineError State := do
  let v ← resolve s .one a
  let n ← nextPc s 2
  .ok { s with pc := n, lastOut := some v, status := some (.ready v) }

/-- `out`, opcode 4 (R121). -/
def execOutput (a : Param) (s : State) : Outcome := finish s (outputBody a s)

end Sys2Proof.Machine
end

