-- ==== Sys2Proof/Machine/Jump.lean ====
section
/-! DEFINITION. `jt` and `jf` (spec/44_jump.md). -/

namespace Sys2Proof.Machine

/-- The next `pc` of a conditional jump: the target, checked, when it is taken, and `pc + 3` otherwise (R130). -/
def jumpNext (taken : Bool) (t : Int) (s : State) : Except MachineError Nat :=
  if taken then checkAddr t .target else nextPc s 3

/-- A conditional jump: both slots are resolved whether or not it is taken (41_step.md R102), and the target is
checked only when it is taken (R130). -/
def jumpWhen (taken : Int → Bool) (a target : Param) (s : State) : Except MachineError State := do
  let c ← resolve s .one a
  let t ← resolve s .two target
  let n ← jumpNext (taken c) t s
  .ok (s.continueAt n)

/-- `jt`, opcode 5: taken on any non-zero value (R130). -/
def execJt (a target : Param) (s : State) : Outcome := finish s (jumpWhen (fun c => decide (c ≠ 0)) a target s)

/-- `jf`, opcode 6: taken on 0 only (R131). -/
def execJf (a target : Param) (s : State) : Outcome := finish s (jumpWhen (fun c => decide (c = 0)) a target s)

end Sys2Proof.Machine
end

