-- ==== Sys2Proof/Machine/RelBase.lean ====
section
/-! DEFINITION. `arb` (spec/46_relbase.md). -/

namespace Sys2Proof.Machine

/-- The `RB_NEG_POLICY` check on a new relative base (R150, decision D12). -/
def checkRb (policy : Config.RbNegPolicy) (r : Int) : Except MachineError Int :=
  if r < 0 then
    match policy with
    | .allow => .ok r
    | .fault => .error (.addressOverflow .rb r)
  else .ok r

/-- The body of `arb` under a given policy: relative mode uses the old `rb` (R150). -/
def arbBody (policy : Config.RbNegPolicy) (a : Param) (s : State) : Except MachineError State := do
  let v ← resolve s .one a
  let w ← narrow 9 (s.rb + v)
  let r ← checkRb policy w
  let n ← nextPc s 2
  .ok { s.continueAt n with rb := r }

/-- `arb`, opcode 9, under this hardware's policy, which the spec leaves open (R150). -/
def execArb (a : Param) (s : State) : Outcome := finish s (arbBody Config.rbNegPolicy a s)

end Sys2Proof.Machine
end

