-- ==== Sys2Proof/Machine/Dispatch.lean ====
section
/-! DEFINITION. One arm per instruction (spec/41_step.md R100). -/

namespace Sys2Proof.Machine

/-- Run one decoded instruction: the body of 41_step.md R94, step 4. -/
def exec (i : Instr) (s : State) : Host.Outcome State Fault Refusal :=
  match i with
  | .add a b dst => Sys2Proof.Machine.execAdd a b dst s
  | .mul a b dst => Sys2Proof.Machine.execMul a b dst s
  | .input dst _ _ => Sys2Proof.Machine.execInput dst s
  | .output a _ _ => Sys2Proof.Machine.execOutput a s
  | .jt a target _ => Sys2Proof.Machine.execJt a target s
  | .jf a target _ => Sys2Proof.Machine.execJf a target s
  | .lt a b dst => Sys2Proof.Machine.execLt a b dst s
  | .eq a b dst => Sys2Proof.Machine.execEq a b dst s
  | .arb a _ _ => Sys2Proof.Machine.execArb a s
  | .hlt _ _ _ => Sys2Proof.Machine.execHlt s

end Sys2Proof.Machine
end

