-- ==== Sys2Proof/Machine/Step.lean ====
section
/-! DEFINITION. One step of the machine: one instruction of the loop of spec/41_step.md R92 (log entry 4). -/

namespace Sys2Proof.Machine

/-- One pass of the loop of 41_step.md R92: refused on a faulted instance, otherwise `Exec1` (R94) with the error,
if there is one, recorded (60_exceptions.md R171). -/
def step (s : State) : Host.Outcome State Fault Refusal :=
  match s.fault with
  | some _ => .refused .faulted
  | none =>
    match fetchDecode s with
    | .error e => raise e s
    | .ok i => exec i s

/-- `s` with the instruction of bits `w` stored where `step` fetches next. -/
def State.withFetchWord (s : State) (nbits w : Nat) : State := placeTableWord s nbits w

end Sys2Proof.Machine
end

