-- ==== Sys2Proof/Machine/Driver.lean ====
section
/-! DEFINITION. The host's three operations and a run of one instance (spec/41_step.md R90 to R104,
60_exceptions.md R185, R188, 70_reset_and_hazards.md R200). -/

namespace Sys2Proof.Machine

/-- The fresh instance made from a program image (70_reset_and_hazards.md R200), the image not checked: every
operation of the host reaches it through `construct`, which checks. -/
def constructState (program : List Int) : State := { State.reset with mem := Memory.ofImage program }

/-- `construct(program)` (R90, R200). The host must give values that fit (60_exceptions.md R188), no more of them
than there are addresses; anything else is refused by name (log entry 18). -/
def construct (program : List Int) : Outcome :=
  if ¬ ∀ v ∈ program, inW v then .refused .valueOutOfRange
  else if Config.addrLimit < program.length then .refused .imageTooLong
  else .next (constructState program)

/-- Whether a queue of `n` entries has room under a capacity, `none` being unbounded (R99, decision D24). -/
def hasRoom (capacity : Option Nat) (n : Nat) : Bool :=
  match capacity with
  | none => true
  | some c => decide (n < c)

/-- `add_input(v)` under a given capacity: push at the back, and nothing else (R99). It is accepted after a fault or
a halt too. -/
def addInputUnder (capacity : Option Nat) (v : Int) (s : State) : Outcome :=
  if ¬ inW v then .refused .valueOutOfRange
  else if hasRoom capacity s.inq.length then .next { s with inq := s.inq ++ [v] }
  else .refused .queueFull

/-- `add_input(v)` of this hardware (R99). -/
def addInput (v : Int) (s : State) : Outcome := addInputUnder Config.inqCapacity v s

/-- What a `step` call under fuel gives. -/
inductive CallResult where
  /-- The call returned a status. -/
  | returned (s : State) (st : Status)
  /-- The call was refused (60_exceptions.md R173). -/
  | refused (r : Refusal)
  /-- The fuel ran out: "no result yet", never an outcome of the machine (R97). -/
  | noResult (s : State)
  deriving DecidableEq, Repr

/-- The spec's `step()` (R92), at most `fuel` instructions of it: run until a status is returned. -/
def stepCall : Nat → State → CallResult
  | 0, s => .noResult s
  | fuel + 1, s =>
    match step s with
    | .next t =>
      match t.status with
      | none => stepCall fuel t
      | some st => .returned t st
    | .fault f => nomatch f
    | .refused r => .refused r

/-- The operations a host performs on a constructed instance (R103). -/
inductive HostOp where
  | addInput (v : Int)
  | step
  deriving DecidableEq, Repr

/-- A run under way: the instance and the values of its `Ready` statuses, oldest first (R103). -/
structure RunState where
  state : State
  outputs : List Int
  deriving DecidableEq, Repr

/-- How a run stands after a list of host operations (R103). -/
inductive RunResult where
  /-- Every operation was performed and the run has not ended. -/
  | going (r : RunState)
  /-- A `step` returned `Halted` or `Error`; `st` is the run's result. -/
  | ended (r : RunState) (st : Status)
  /-- An operation was refused. -/
  | refused (r : RunState) (why : Refusal)
  /-- The construction was refused, so there is no run (log entry 18). -/
  | notConstructed (why : Refusal)
  /-- A `step` did not return within its fuel (R97). -/
  | noResult (r : RunState)
  deriving DecidableEq, Repr

/-- Perform host operations one after another, each `step` under `fuel`, up to the end of the run (R103). -/
def runOps (fuel : Nat) : List HostOp → RunState → RunResult
  | [], r => .going r
  | .addInput v :: ops, r =>
    match addInput v r.state with
    | .next t => runOps fuel ops { r with state := t }
    | .fault f => nomatch f
    | .refused why => .refused r why
  | .step :: ops, r =>
    match stepCall fuel r.state with
    | .returned t (.ready v) => runOps fuel ops ⟨t, r.outputs ++ [v]⟩
    | .returned t st => .ended { r with state := t } st
    | .refused why => .refused r why
    | .noResult t => .noResult { r with state := t }

/-- The single-instance protocol: construct, add all inputs, then call `step` at most `calls` times, collecting the
`Ready` values (60_exceptions.md R185). DESIGN CHOICE (log entry 18): what comes of an image, or an input, with a value
that does not fit, or of an image longer than the address space, the spec leaves to the host's duty (R188); the run is
refused where `construct` or `addInput` refuses it. -/
def runSingle (fuel calls : Nat) (program inputs : List Int) : RunResult :=
  match construct program with
  | .next s => runOps fuel (inputs.map HostOp.addInput ++ List.replicate calls HostOp.step) ⟨s, []⟩
  | .fault f => nomatch f
  | .refused why => .notConstructed why

end Sys2Proof.Machine
end

