-- ==== Sys2Proof/Machine/Ring.lean ====
section
/-! DEFINITION. The amplifier ring, a host protocol over several instances and no part of the block
(spec/00_scope.md R5, 60_exceptions.md R182 to R184). -/

namespace Sys2Proof.Machine

/-- The ring: its instances in order, the index of the one to step next, and the final outputs recorded so far
(60_exceptions.md R183). -/
structure Ring where
  cpus : List State
  index : Nat
  final : List (Option Int)
  deriving DecidableEq, Repr

/-- How the ring stands after a pass of its loop. -/
inductive RingResult where
  /-- The loop goes on. -/
  | running (r : Ring)
  /-- The last instance halted: the ring's result is `v` (R183). -/
  | stopped (r : Ring) (v : Int)
  /-- An instance errored: the ring fails with that error (R183). -/
  | failed (r : Ring) (kind : ErrorKind) (code : Nat) (info : ErrorInfo)
  /-- An operation of the host was refused. -/
  | refused (r : Ring) (why : Refusal)
  /-- A `step` did not return within its fuel (41_step.md R97). -/
  | noResult (r : Ring)
  deriving DecidableEq, Repr

/-- Construct one instance of the program and queue its phase setting (R182). -/
def ringCpu (program : List Int) (phase : Int) : Except Refusal State :=
  match construct program with
  | .next s =>
    match addInput phase s with
    | .next t => .ok t
    | .fault f => nomatch f
    | .refused why => .error why
  | .fault f => nomatch f
  | .refused why => .error why

/-- Construct one instance per phase setting, in order (R182). -/
def ringCpus (program : List Int) : List Int → Except Refusal (List State)
  | [] => .ok []
  | ph :: rest => do
    let s ← ringCpu program ph
    let more ← ringCpus program rest
    .ok (s :: more)

/-- Setting the ring up: instances, phases, and the initial signal 0 for instance 0 (R182). -/
def ringSetup (program phases : List Int) : Except Refusal Ring := do
  let cpus ← ringCpus program phases
  match cpus with
  | [] => .error .emptyRing
  | first :: rest =>
    match addInput 0 first with
    | .next t => .ok ⟨t :: rest, 0, (t :: rest).map (fun _ => none)⟩
    | .fault f => nomatch f
    | .refused why => .error why

/-- Hand `v` to the next instance of the ring and advance the index (R183). -/
def ringForward (r : Ring) (v : Int) : RingResult :=
  let j := (r.index + 1) % r.cpus.length
  match r.cpus[j]? with
  | none => .refused r .emptyRing
  | some s =>
    match addInput v s with
    | .next t => .running { r with cpus := r.cpus.set j t, index := j }
    | .fault f => nomatch f
    | .refused why => .refused r why

/-- One pass of the ring's loop, the `step` call under `fuel` (R183; forwarding on a non-final halt is the spec's
reading, decision D18). -/
def ringPass (fuel : Nat) (r : Ring) : RingResult :=
  match r.cpus[r.index]? with
  | none => .refused r .emptyRing
  | some s =>
    match stepCall fuel s with
    | .returned t (.ready v) => ringForward { r with cpus := r.cpus.set r.index t } v
    | .returned t (.halted v) =>
      let r' : Ring := { r with cpus := r.cpus.set r.index t, final := r.final.set r.index (some v) }
      if r.index + 1 = r.cpus.length then .stopped r' v else ringForward r' v
    | .returned t (.error kind code info) =>
      .failed { r with cpus := r.cpus.set r.index t } kind code info
    | .refused why => .refused r why
    | .noResult t => .noResult { r with cpus := r.cpus.set r.index t }

/-- At most `passes` passes of the ring's loop (R183). -/
def ringRun (fuel : Nat) : Nat → Ring → RingResult
  | 0, r => .running r
  | passes + 1, r =>
    match ringPass fuel r with
    | .running r' => ringRun fuel passes r'
    | done => done

end Sys2Proof.Machine
end

