-- ==== Sys2Proof/Safety.lean ====
section
/-! DEFINITION. The terms the statements use: the memory as the spec's sequence, what a parameter names in a state,
and the invariant of a machine that only ran (spec/10_state.md, 20_memory.md, 40_addressing.md). -/

namespace Sys2Proof.Machine

/-- The memory as the spec's sequence of `L` cells (20_memory.md R40, R41). -/
def Memory.toSequence (m : Memory) : List Int := (List.range m.len).map (lookupCell m.cells)

/-- The exact, unchecked address a parameter names, `none` for an immediate (40_addressing.md R80, R81, R85). -/
def addressOf (s : State) : Param → Option Int
  | .position a => some a
  | .immediate _ => none
  | .relative o => some (s.rb + o)

/-- The value of a readable parameter, `none` where its address is not legal (40_addressing.md R80). -/
def valueOf (s : State) (p : Param) : Option Int :=
  match addressOf s p with
  | none => some p.raw
  | some a => if legalAddr a then some (s.mem.read a.toNat) else none

/-- The cell a parameter names as a write target, `none` for an immediate or an address that is not legal
(40_addressing.md R81). -/
def cellOf (s : State) (p : Param) : Option Nat :=
  match addressOf s p with
  | none => none
  | some a => if legalAddr a then some a.toNat else none

/-- The parameter is readable in `s` and its value is `v`. -/
abbrev ReadsAs (s : State) (p : Param) (v : Int) : Prop := valueOf s p = some v

/-- The parameter names the legal cell `d` as a write target. -/
abbrev WritesTo (s : State) (p : Param) (d : Nat) : Prop := cellOf s p = some d

/-- The parameter names the address `a`, which is not a legal one (20_memory.md R44). -/
abbrev BadAddress (s : State) (p : Param) (a : Int) : Prop := addressOf s p = some a ∧ ¬ legalAddr a

/-- `pc` can advance by `n` (41_step.md R101). -/
abbrev Advances (s : State) (n : Nat) : Prop := s.pc + n < Config.addrLimit

/-- The detail of a fault record belongs to its kind (60_exceptions.md R170). -/
def infoFits : ErrorKind → ErrorInfo → Bool
  | .unknownOpcode, .opcode _ => true
  | .unknownMode, .modeDigit _ _ => true
  | .invalidWriteMode, .writeSlot _ => true
  | .inputExhausted, .nothing => true
  | .addressOverflow, .address _ _ => true
  | .noOutputProduced, .nothing => true
  | .arithmeticOverflow, .arithmetic _ _ => true
  | _, _ => false

/-- The fault record agrees with the rest of the state: its code and detail are its kind's, it names the instruction
`pc` still points at, and the host was told the same (60_exceptions.md R170, R171). Without a record, the last status
is no error. -/
abbrev State.faultConsistent (s : State) : Prop :=
  match s.fault with
  | some r => r.code = errorCode r.kind ∧ infoFits r.kind r.info ∧ r.pc = s.pc ∧
      s.status = some (.error r.kind r.code r.info)
  | none => match s.status with
    | some (.error _ _ _) => False
    | some (.ready v) => s.lastOut = some v
    | some (.halted v) => s.lastOut = some v
    | none => True

/-- The invariant of every instance: canonical memory within the address space, every value representable
(00_scope.md R10), `pc` a legal address (10_state.md R21), and a consistent fault record. -/
structure State.Inv (s : State) : Prop where
  memory : s.mem.wf
  memoryBound : s.mem.len ≤ Config.addrLimit
  cells : ∀ e ∈ s.mem.cells, inW e.2
  pc : s.pc < Config.addrLimit
  rb : inW s.rb
  queue : ∀ v ∈ s.inq, inW v
  output : ∀ v ∈ s.lastOut, inW v
  fault : s.faultConsistent

/-- The instruction ran without raising an error: its status is no `Error`. -/
def State.ranWell (s : State) : Bool :=
  match s.status with
  | some (.error _ _ _) => false
  | _ => true

/-- Two states that differ in the memory length only, unlisted and unallocated cells reading alike
(20_memory.md R58). -/
structure SameButLength (s t : State) : Prop where
  cells : ∀ a, s.mem.read a = t.mem.read a
  pc : s.pc = t.pc
  rb : s.rb = t.rb
  inq : s.inq = t.inq
  lastOut : s.lastOut = t.lastOut
  fault : s.fault = t.fault
  status : s.status = t.status

/-- The state after an error of the given kind, code and detail: the record and the status, and nothing else
(60_exceptions.md R171). -/
def faultedState (s : State) (kind : ErrorKind) (code : Nat) (info : ErrorInfo) : State :=
  { s with fault := some ⟨kind, code, s.pc, info⟩, status := some (.error kind code info) }

/-- The outcome of an error at `s`: a next state, the faulted one, with the code of its kind (60_exceptions.md R170,
R171). -/
def raises (kind : ErrorKind) (info : ErrorInfo) (s : State) : Outcome :=
  .next (faultedState s kind (errorCode kind) info)

/-- The errors a three-slot instruction raises from its operands, in the order of the checks: slot 1, slot 2, then
the write target (42_arith.md R110, 60_exceptions.md R174). -/
def OperandErrors (i : Instr) (a b dst : Param) (s : State) : Prop :=
  (∀ v, BadAddress s a v → exec i s = raises .addressOverflow (.address (.slot .one) v) s) ∧
  (∀ x v, ReadsAs s a x → BadAddress s b v →
    exec i s = raises .addressOverflow (.address (.slot .two) v) s) ∧
  (∀ x y, ReadsAs s a x → ReadsAs s b y → dst.mode = .immediate →
    exec i s = raises .invalidWriteMode (.writeSlot .three) s) ∧
  (∀ x y v, ReadsAs s a x → ReadsAs s b y → BadAddress s dst v →
    exec i s = raises .addressOverflow (.address (.slot .three) v) s)

/-- The errors a jump raises from its operands, whether or not it is taken: slot 1, then slot 2 (44_jump.md R130). -/
def JumpOperandErrors (i : Instr) (a target : Param) (s : State) : Prop :=
  (∀ v, BadAddress s a v → exec i s = raises .addressOverflow (.address (.slot .one) v) s) ∧
  (∀ x v, ReadsAs s a x → BadAddress s target v →
    exec i s = raises .addressOverflow (.address (.slot .two) v) s)

/-- What cell `a` reads as in `s` once `v` has been written to cell `d` (20_memory.md R43). -/
def cellAfterWrite (s : State) (d : Nat) (v : Int) (a : Nat) : Int := if a = d then v else s.mem.read a

/-- The instruction `i`, of `n` cells, writes `v` to cell `d`, and the fetch of the next instruction sees that write in
its word and in each of its operand cells (20_memory.md R54). -/
def NextFetchSees (i : Instr) (n : Nat) (s : State) (d : Nat) (v : Int) : Prop :=
  ∃ t, exec i s = .next t ∧ t.pc = s.pc + n ∧
    fetchDecode t = decode (cellAfterWrite s d v (s.pc + n)) (cellAfterWrite s d v (s.pc + n + 1))
      (cellAfterWrite s d v (s.pc + n + 2)) (cellAfterWrite s d v (s.pc + n + 3))

/-- The value the step from `s` to `t` stored as an input: what the destination of the `in` at `pc` holds in `t`, where
that `in` ran well, and nothing for every other step (43_io.md R120). -/
def inputStored (s t : State) : List Int :=
  match fetchDecode s with
  | .ok (.input dst _ _) => if t.ranWell then ((cellOf s dst).map t.mem.read).toList else []
  | _ => []

/-- The values that the `in` instructions of a step call stored, in the order they were executed, one for each of them
(43_io.md R122; the call under fuel, log entry 4). -/
def inputsStored : Nat → State → List Int
  | 0, _ => []
  | fuel + 1, s =>
    match step s with
    | .next t => inputStored s t ++ (match t.status with
      | none => inputsStored fuel t
      | some _ => [])
    | .fault _ => []
    | .refused _ => []

/-- The values `trem(w, 100)` of the opcode table (30_encoding.md R70). -/
def opcodeTable : List Int := [1, 2, 3, 4, 5, 6, 7, 8, 9, 99]

/-- The legal mode digits (30_encoding.md R66). -/
def legalDigits : List Int := [0, 1, 2]

/-- The next state of an outcome, where it has one. -/
def nextOf : Outcome → Option State
  | .next t => some t
  | .fault _ => none
  | .refused _ => none

end Sys2Proof.Machine
end

