-- ==== Sys2Proof/Certificates/Slice0/Obligations.lean ====
section
/-! DEFINITION. The statements for the provers, each from the rules of spec/ its docstring names. A docstring that
names a decision D<n> of spec/92_eei_decisions.md says that the statement rests on a choice of the spec, not of its
source (log entry 8). -/

open Sys2Proof Sys2Proof.Machine

/-! ### Encoding (spec/30_encoding.md) -/

/-- 30_encoding.md R61, R62: the splitter reads the decimal digits of a word, whatever stands above the ten-thousands
place, and of a negated word the negated fields (truncated remainder, decision D5). -/
def Obligations.SplitterReadsDecimalDigits : Prop :=
  (∀ op m1 m2 m3 hi : Int, 0 ≤ op → op < 100 → 0 ≤ m1 → m1 < 10 → 0 ≤ m2 → m2 < 10 → 0 ≤ m3 → m3 < 10 → 0 ≤ hi →
    splitWord (op + 100 * m1 + 1000 * m2 + 10000 * m3 + 100000 * hi) = ⟨op, m1, m2, m3⟩) ∧
  ∀ w : Int, splitWord (-w) =
    ⟨-(splitWord w).opcode, -(splitWord w).mode1, -(splitWord w).mode2, -(splitWord w).mode3⟩

/-- 30_encoding.md R65, the re-encoding law. -/
def Obligations.SplitReencodesTheLowFiveDigits : Prop :=
  (∀ w : Int, 0 ≤ w → (splitWord w).opcode + 100 * (splitWord w).mode1 + 1000 * (splitWord w).mode2
      + 10000 * (splitWord w).mode3 = w.tmod 100000) ∧
  ∀ w : Int, (splitWord w).opcode = w.tmod 100

/-- 30_encoding.md R63: every negative word errors, with `UnknownMode` if a slot digit is non-zero and otherwise with
`UnknownOpcode`. Rests on decision D5 and, for slots an opcode does not use, D6. -/
def Obligations.NegativeWordsNeverDecode : Prop :=
  ∀ w r1 r2 r3 : Int, w < 0 →
    decode w r1 r2 r3 =
      if (splitWord w).mode1 ≠ 0 then .error (.unknownMode .one (splitWord w).mode1)
      else if (splitWord w).mode2 ≠ 0 then .error (.unknownMode .two (splitWord w).mode2)
      else if (splitWord w).mode3 ≠ 0 then .error (.unknownMode .three (splitWord w).mode3)
      else .error (.unknownOpcode (splitWord w).opcode)

/-- 30_encoding.md R66, R68, R73, 60_exceptions.md R174: the lowest illegal slot is reported, before the opcode is
looked at; then an opcode outside the table; and every other word decodes. Rests on decisions D6 and D7. -/
def Obligations.DecoderChecksModesThenOpcode : Prop :=
  ∀ w r1 r2 r3 : Int,
    ((splitWord w).mode1 ∉ legalDigits → decode w r1 r2 r3 = .error (.unknownMode .one (splitWord w).mode1)) ∧
    ((splitWord w).mode1 ∈ legalDigits → (splitWord w).mode2 ∉ legalDigits →
      decode w r1 r2 r3 = .error (.unknownMode .two (splitWord w).mode2)) ∧
    ((splitWord w).mode1 ∈ legalDigits → (splitWord w).mode2 ∈ legalDigits → (splitWord w).mode3 ∉ legalDigits →
      decode w r1 r2 r3 = .error (.unknownMode .three (splitWord w).mode3)) ∧
    ((splitWord w).mode1 ∈ legalDigits → (splitWord w).mode2 ∈ legalDigits → (splitWord w).mode3 ∈ legalDigits →
      (splitWord w).opcode ∉ opcodeTable → decode w r1 r2 r3 = .error (.unknownOpcode (splitWord w).opcode)) ∧
    ((splitWord w).mode1 ∈ legalDigits → (splitWord w).mode2 ∈ legalDigits → (splitWord w).mode3 ∈ legalDigits →
      (splitWord w).opcode ∈ opcodeTable → ∃ i, decode w r1 r2 r3 = .ok i)

/-- Decode after encode, every instruction with every operand, whatever cells follow it (30_encoding.md R60, R69,
R70, R72). -/
def Obligations.DecodeAfterEncodeIsIdentity : Prop :=
  ∀ (i : Instr) (rest : List Int), decodeCells (encode i ++ rest) = .ok i

/-- Encode after decode: a word that decodes is given back, digits above the fifth dropped (30_encoding.md R62), with
the operand cells that belong to the instruction (R69, R74). -/
def Obligations.EncodeAfterDecodeGivesTheWordBack : Prop :=
  ∀ (w r1 r2 r3 : Int) (i : Instr), decode w r1 r2 r3 = .ok i →
    encode i = ([w.tmod 100000, r1, r2, r3] : List Int).take i.width

/-- The encoder writes cells: as many as the instruction's width, each representable, for a well-formed instruction
(30_encoding.md R60, R67, 00_scope.md R10). -/
def Obligations.EncodingFitsItsCells : Prop :=
  ∀ i : Instr, i.WellFormed → (encode i).length = i.width ∧ ∀ c ∈ encode i, inW c

/-- Words written out from the spec's encodings decode to the instructions they stand for (30_encoding.md R61, R70,
95_test_vectors.md DEC-1 to DEC-5, P3, P4). -/
def Obligations.SpecWordsDecode : Prop :=
  decodeCells [1002, 4, 3, 4] = .ok (.mul (.position 4) (.immediate 3) (.position 4)) ∧
  decodeCells [21101, 7, 8, 0] = .ok (.add (.immediate 7) (.immediate 8) (.relative 0)) ∧
  decodeCells [203, 5] = .ok (.input (.relative 5) .position .position) ∧
  decodeCells [204, -1] = .ok (.output (.relative (-1)) .position .position) ∧
  decodeCells [1105, 1, 6] = .ok (.jt (.immediate 1) (.immediate 6) .position) ∧
  decodeCells [1006, 101, 0] = .ok (.jf (.position 101) (.immediate 0) .position) ∧
  decodeCells [1007, 30, 2, 32] = .ok (.lt (.position 30) (.immediate 2) (.position 32)) ∧
  decodeCells [1008, 100, 16, 101] = .ok (.eq (.position 100) (.immediate 16) (.position 101)) ∧
  decodeCells [109, 50] = .ok (.arb (.immediate 50) .position .position) ∧
  decodeCells [20099] = .ok (.hlt .position .position .relative)

/-- 30_encoding.md R72: a legal mode digit in a slot the opcode does not use has no effect. -/
def Obligations.UnusedModesHaveNoEffect : Prop :=
  ∀ (a t : Param) (m1 m2 m3 n1 n2 n3 : Mode) (s : State),
    exec (.input a m2 m3) s = exec (.input a n2 n3) s ∧ exec (.output a m2 m3) s = exec (.output a n2 n3) s ∧
    exec (.jt a t m3) s = exec (.jt a t n3) s ∧ exec (.jf a t m3) s = exec (.jf a t n3) s ∧
    exec (.arb a m2 m3) s = exec (.arb a n2 n3) s ∧ exec (.hlt m1 m2 m3) s = exec (.hlt n1 n2 n3) s

/-! ### Memory and operands (spec/20_memory.md, 40_addressing.md) -/

/-- 20_memory.md R42, R43: the memory is the spec's growable sequence. A read gives the cell, or 0 past the end; a
write past the end first appends zero cells up to and including its target, then sets the cell. -/
def Obligations.MemoryIsTheGrowableSequence : Prop :=
  ∀ (m : Memory) (a : Nat) (v : Int),
    m.toSequence.length = m.len ∧ m.read a = (if a < m.len then m.toSequence.getD a 0 else 0) ∧
    (m.write a v).toSequence =
      (if m.len ≤ a then (m.toSequence ++ List.replicate (a + 1 - m.len) 0).set a v else m.toSequence.set a v)

/-- 20_memory.md R41: which addresses are legal, unallocated cells read as 0, the length only grows (by a step, and not
by `add_input`), and initially it is the program's. -/
def Obligations.MemoryNeverShrinks : Prop :=
  (∀ a : Int, legalAddr a ↔ 0 ≤ a ∧ a < Config.addrLimit) ∧
  (∀ (m : Memory) (a : Nat), m.len ≤ a → m.read a = 0) ∧
  (∀ s t : State, step s = .next t → s.mem.len ≤ t.mem.len) ∧
  (∀ (s t : State) (v : Int), addInput v s = .next t → t.mem = s.mem) ∧
  ∀ program : List Int, (constructState program).mem.len = program.length

/-- 20_memory.md R58: from two states that differ only in the memory length, every step is the same. -/
def Obligations.MemoryLengthIsUnobservable : Prop :=
  ∀ s s' : State, SameButLength s s' →
    (∀ t, step s = .next t → ∃ t', step s' = .next t' ∧ SameButLength t t') ∧
    ∀ r, step s = .refused r → step s' = .refused r

/-- 40_addressing.md R81: `write_target` gives the address of a legal position or relative parameter, and raises
`InvalidWriteMode` for an immediate and `AddressOverflow` for an address that is negative or not below the limit. -/
def Obligations.WriteTargetRule : Prop :=
  ∀ (s : State) (k : Slot) (x : Int),
    writeTarget s k (.position x) =
      (if 0 ≤ x ∧ x < Config.addrLimit then .ok x.toNat else .error (.addressOverflow (.slot k) x)) ∧
    writeTarget s k (.relative x) =
      (if 0 ≤ s.rb + x ∧ s.rb + x < Config.addrLimit then .ok (s.rb + x).toNat
       else .error (.addressOverflow (.slot k) (s.rb + x))) ∧
    writeTarget s k (.immediate x) = .error (.invalidWriteMode k)

/-- 40_addressing.md R80: `resolve` reads the cell a legal position or relative parameter names, returns an immediate
unchanged, and otherwise raises `AddressOverflow` with the exact address. Rests on decision D13 (exact addresses) and
D3 (the limit). -/
def Obligations.ResolveRule : Prop :=
  ∀ (s : State) (k : Slot) (x : Int),
    resolve s k (.position x) =
      (if 0 ≤ x ∧ x < 9223372036854775808 then .ok (s.mem.read x.toNat) else .error (.addressOverflow (.slot k) x)) ∧
    resolve s k (.relative x) =
      (if 0 ≤ s.rb + x ∧ s.rb + x < 9223372036854775808 then .ok (s.mem.read (s.rb + x).toNat)
       else .error (.addressOverflow (.slot k) (s.rb + x))) ∧
    resolve s k (.immediate x) = .ok x

/-- 20_memory.md R54: the cell an instruction wrote is what the very next fetch reads there, whether it is the next
instruction's word or one of its three operand cells, or neither; for each of the five instructions that write a cell,
at every destination. -/
def Obligations.NextFetchSeesTheWrite : Prop :=
  (∀ (s : State) (a b dst : Param) (x y : Int) (d : Nat), ReadsAs s a x → ReadsAs s b y → WritesTo s dst d →
    Advances s 4 →
    (inW (x + y) → NextFetchSees (.add a b dst) 4 s d (x + y)) ∧
    (inW (x * y) → NextFetchSees (.mul a b dst) 4 s d (x * y)) ∧
    NextFetchSees (.lt a b dst) 4 s d (if x < y then 1 else 0) ∧
    NextFetchSees (.eq a b dst) 4 s d (if x = y then 1 else 0)) ∧
  ∀ (s : State) (dst : Param) (m2 m3 : Mode) (d : Nat) (v : Int) (rest : List Int), WritesTo s dst d →
    s.inq = v :: rest → Advances s 2 → NextFetchSees (.input dst m2 m3) 2 s d v

/-! ### Reset (spec/70_reset_and_hazards.md, 10_state.md) -/

/-- 70_reset_and_hazards.md R200: construction copies the program and sets every other piece of state to its reset
value, `lastOut` and `FAULT` as log entry 9 has them. The premises, that the values fit and the image is no longer than
the address space, are where the model constructs at all (log entry 18). The last conjunct is the model's own field (log
entry 2). -/
def Obligations.ConstructionCopiesTheProgram : Prop :=
  ∀ program : List Int, (∀ v ∈ program, inW v) → program.length ≤ Config.addrLimit →
    ∃ s, construct program = .next s ∧ s.mem.toSequence = program ∧ s.mem.len = program.length ∧ s.pc = 0 ∧
      s.rb = 0 ∧ s.inq = [] ∧ s.lastOut = none ∧ s.fault = none ∧ s.status = none

/-- 10_state.md R35, 70_reset_and_hazards.md R200: the state after reset is that of the empty program. -/
def Obligations.ResetIsEmptyConstruction : Prop :=
  construct [] = .next State.reset ∧ State.reset.mem = ⟨0, []⟩ ∧ State.reset.pc = 0 ∧ State.reset.rb = 0 ∧
    State.reset.inq = [] ∧ State.reset.lastOut = none ∧ State.reset.fault = none

/-- 70_reset_and_hazards.md R202: the first step of an empty program fetches 0 and raises `UnknownOpcode(0)`. Rests on
decision D14. -/
def Obligations.EmptyProgramRaisesUnknownOpcodeZero : Prop :=
  step State.reset = raises .unknownOpcode (.opcode 0) State.reset

/-! ### The step engine (spec/41_step.md, 60_exceptions.md) -/

/-- 41_step.md R92, R94: when the four cells at `pc` decode to an instruction, a step of an instance that has not
faulted is that instruction's execution, with nothing around it. -/
def Obligations.StepRunsTheDecodedInstruction : Prop :=
  ∀ (s : State) (i : Instr), s.fault = none →
    decode (s.mem.read s.pc) (s.mem.read (s.pc + 1)) (s.mem.read (s.pc + 2)) (s.mem.read (s.pc + 3)) = .ok i →
    step s = exec i s

/-- 30_encoding.md R68, 41_step.md R94: an illegal mode digit in the word at `pc`, used by the opcode or not, raises
`UnknownMode` for the lowest such slot. Rests on decisions D6, D7 and D15 (the code). -/
def Obligations.StepRaisesUnknownMode : Prop :=
  ∀ s : State, s.fault = none →
    ((splitWord (s.mem.read s.pc)).mode1 ∉ legalDigits →
      step s = raises .unknownMode (.modeDigit .one (splitWord (s.mem.read s.pc)).mode1) s) ∧
    ((splitWord (s.mem.read s.pc)).mode1 ∈ legalDigits → (splitWord (s.mem.read s.pc)).mode2 ∉ legalDigits →
      step s = raises .unknownMode (.modeDigit .two (splitWord (s.mem.read s.pc)).mode2) s) ∧
    ((splitWord (s.mem.read s.pc)).mode1 ∈ legalDigits → (splitWord (s.mem.read s.pc)).mode2 ∈ legalDigits →
      (splitWord (s.mem.read s.pc)).mode3 ∉ legalDigits →
      step s = raises .unknownMode (.modeDigit .three (splitWord (s.mem.read s.pc)).mode3) s)

/-- 47_halt.md R161: a word with legal mode digits and an opcode outside the table raises `UnknownOpcode`, nothing is
committed, the step call returns the error, and the instance is then faulted. That the next step is refused is
60_exceptions.md R173, which rests on decision D9 (log entry 3). -/
def Obligations.StepRaisesUnknownOpcode : Prop :=
  ∀ s : State, s.fault = none → (splitWord (s.mem.read s.pc)).mode1 ∈ legalDigits →
    (splitWord (s.mem.read s.pc)).mode2 ∈ legalDigits → (splitWord (s.mem.read s.pc)).mode3 ∈ legalDigits →
    (splitWord (s.mem.read s.pc)).opcode ∉ opcodeTable →
    step s = raises .unknownOpcode (.opcode (splitWord (s.mem.read s.pc)).opcode) s ∧
    (∀ fuel, ∃ t, stepCall (fuel + 1) s =
      .returned t (.error .unknownOpcode 1 (.opcode (splitWord (s.mem.read s.pc)).opcode)) ∧
      t = faultedState s .unknownOpcode 1 (.opcode (splitWord (s.mem.read s.pc)).opcode) ∧
      step t = .refused .faulted)

/-- 60_exceptions.md R173, 41_step.md R92: every step of a faulted instance is refused, while `add_input` still
appends. Rests on decision D9. -/
def Obligations.FaultedInstanceIsRefused : Prop :=
  ∀ (s : State) (r : FaultRecord), s.fault = some r →
    step s = .refused .faulted ∧ (∀ fuel, stepCall (fuel + 1) s = .refused .faulted) ∧
    ∀ v, inW v → addInput v s = .next { s with inq := s.inq ++ [v] }

/-- 60_exceptions.md R171: a step that errors sets `FAULT` to the kind, its code, the unchanged `pc` and the detail,
returns the same to the host, and changes nothing else. -/
def Obligations.ErrorsCommitNothing : Prop :=
  ∀ s t : State, step s = .next t → t.ranWell = false →
    ∃ (kind : ErrorKind) (info : ErrorInfo), infoFits kind info = true ∧ t = faultedState s kind (errorCode kind) info

/-- Every instruction, in every state, has a next state, and so has every step of an instance that has not faulted:
nothing the program can do stops the model (41_step.md R93, R94; 60_exceptions.md R170). -/
def Obligations.EveryStepHasANextState : Prop :=
  (∀ (i : Instr) (s : State), ∃ t, exec i s = .next t) ∧ ∀ s : State, s.fault = none → ∃ t, step s = .next t

/-- The invariant is kept by every step, from every state that has it (00_scope.md R10, 10_state.md R21, R25 to R28,
20_memory.md R41). -/
def Obligations.StepKeepsTheInvariant : Prop :=
  ∀ s t : State, s.Inv → step s = .next t → t.Inv

/-- The state after reset has the invariant. -/
def Obligations.ResetHasTheInvariant : Prop := State.reset.Inv

/-- The host's operations give states with the invariant (00_scope.md R10, 41_step.md R99, 60_exceptions.md R188). -/
def Obligations.HostOperationsKeepTheInvariant : Prop :=
  (∀ (program : List Int) (s : State), construct program = .next s → s.Inv) ∧
  ∀ (v : Int) (s t : State), s.Inv → addInput v s = .next t → t.Inv

/-- 60_exceptions.md R170, column "raised by": which instructions raise which kind. `UnknownOpcode` and `UnknownMode`
come from the decoder alone. Rests on decision D4 for `ArithmeticOverflow`. -/
def Obligations.ErrorKindsAreRaisedByTheirOpcodes : Prop :=
  ∀ (i : Instr) (s t : State) (kind : ErrorKind) (code : Nat) (info : ErrorInfo), exec i s = .next t →
    t.status = some (.error kind code info) →
    match kind, i with
    | .unknownOpcode, _ | .unknownMode, _ => False
    | .invalidWriteMode, .add .. | .invalidWriteMode, .mul .. | .invalidWriteMode, .lt .. | .invalidWriteMode, .eq .. =>
      info = .writeSlot .three
    | .invalidWriteMode, .input .. => info = .writeSlot .one
    | .invalidWriteMode, _ => False
    | .inputExhausted, .input .. => s.inq = []
    | .inputExhausted, _ => False
    | .addressOverflow, .hlt .. => False
    | .addressOverflow, _ => ∃ use v, info = .address use v ∧ ¬ legalAddr v
    | .noOutputProduced, .hlt .. => s.lastOut = none
    | .noOutputProduced, _ => False
    | .arithmeticOverflow, .add .. => ∃ r, info = .arithmetic 1 r ∧ ¬ inW r
    | .arithmeticOverflow, .mul .. => ∃ r, info = .arithmetic 2 r ∧ ¬ inW r
    | .arithmeticOverflow, .arb .. => ∃ r, info = .arithmetic 9 r ∧ ¬ inW r
    | .arithmeticOverflow, _ => False

/-- 60_exceptions.md R170: the numeric codes. Rests on decision D15. -/
def Obligations.ErrorCodesAreTheTables : Prop :=
  [ErrorKind.unknownOpcode, .unknownMode, .invalidWriteMode, .inputExhausted, .addressOverflow, .noOutputProduced,
    .arithmeticOverflow].map errorCode = [1, 2, 3, 4, 5, 6, 7]

/-- Who writes what (10_state.md R25 to R27, 20_memory.md R40): only `arb` changes `rb`, only `in` takes from the
queue, only `out` changes `lastOut`, and only the five write-target instructions change memory. -/
def Obligations.OnlyTheirInstructionWritesARegister : Prop :=
  ∀ (i : Instr) (s t : State), exec i s = .next t →
    (match i with | .arb .. => True | _ => t.rb = s.rb) ∧
    (match i with | .input .. => True | _ => t.inq = s.inq) ∧
    (match i with | .output .. => True | _ => t.lastOut = s.lastOut) ∧
    (match i with
      | .add .. | .mul .. | .lt .. | .eq .. | .input .. => True
      | _ => t.mem = s.mem)

/-- 10_state.md R22: where `pc` goes. An instruction that ran well advances by its width, a jump goes to its target's
value or on, a halt stays; an error leaves `pc`. Rests on decision D10 for the halt, and for the bound on the new `pc` on
D3 (the limit, log entry 7) and D13 (that it is checked before the commit). -/
def Obligations.PcMovesByWidthTargetOrNotAtAll : Prop :=
  ∀ (i : Instr) (s t : State), exec i s = .next t →
    if t.ranWell then
      match i with
      | .jt a target _ => ∃ c v, ReadsAs s a c ∧ ReadsAs s target v ∧ (t.pc : Int) = if c ≠ 0 then v else s.pc + 3
      | .jf a target _ => ∃ c v, ReadsAs s a c ∧ ReadsAs s target v ∧ (t.pc : Int) = if c = 0 then v else s.pc + 3
      | .hlt .. => t.pc = s.pc
      | _ => t.pc = s.pc + i.width ∧ t.pc < 9223372036854775808
    else t.pc = s.pc

/-! ### The instructions (spec/42_arith.md to 47_halt.md) -/

/-- 42_arith.md R110: `add` writes the exact sum to its destination and advances by 4. -/
def Obligations.AddCompletes : Prop :=
  ∀ (s : State) (a b dst : Param) (x y : Int) (d : Nat), ReadsAs s a x → ReadsAs s b y → WritesTo s dst d →
    inW (x + y) → Advances s 4 →
    exec (.add a b dst) s = .next { s with mem := s.mem.write d (x + y), pc := s.pc + 4, status := none }

/-- 42_arith.md R111: `mul` writes the exact product to its destination and advances by 4. -/
def Obligations.MulCompletes : Prop :=
  ∀ (s : State) (a b dst : Param) (x y : Int) (d : Nat), ReadsAs s a x → ReadsAs s b y → WritesTo s dst d →
    inW (x * y) → Advances s 4 →
    exec (.mul a b dst) s = .next { s with mem := s.mem.write d (x * y), pc := s.pc + 4, status := none }

/-- 42_arith.md R110 to R112, 60_exceptions.md R174: the errors of `add` and `mul`, in the order of the checks. Rests on
decisions D4 (overflow), D7 (order), D13 (exact addresses) and D15 (codes). -/
def Obligations.AddAndMulErrorsInOrder : Prop :=
  ∀ (s : State) (a b dst : Param),
    OperandErrors (.add a b dst) a b dst s ∧ OperandErrors (.mul a b dst) a b dst s ∧
    (∀ x y d, ReadsAs s a x → ReadsAs s b y → WritesTo s dst d → ¬ inW (x + y) →
      exec (.add a b dst) s = raises .arithmeticOverflow (.arithmetic 1 (x + y)) s) ∧
    (∀ x y d, ReadsAs s a x → ReadsAs s b y → WritesTo s dst d → ¬ inW (x * y) →
      exec (.mul a b dst) s = raises .arithmeticOverflow (.arithmetic 2 (x * y)) s) ∧
    (∀ x y d, ReadsAs s a x → ReadsAs s b y → WritesTo s dst d → inW (x + y) → ¬ Advances s 4 →
      exec (.add a b dst) s = raises .addressOverflow (.address .pcAdvance (s.pc + 4)) s) ∧
    (∀ x y d, ReadsAs s a x → ReadsAs s b y → WritesTo s dst d → inW (x * y) → ¬ Advances s 4 →
      exec (.mul a b dst) s = raises .addressOverflow (.address .pcAdvance (s.pc + 4)) s)

/-- 45_compare.md R140, whole: the encoding of `lt`, its result by signed comparison, and its errors in order. -/
def Obligations.LessThanRule : Prop :=
  ∀ (s : State) (a b dst : Param),
    encode (.lt a b dst) =
      [7 + 100 * a.mode.digit + 1000 * b.mode.digit + 10000 * dst.mode.digit, a.raw, b.raw, dst.raw] ∧
    (∀ x y d, ReadsAs s a x → ReadsAs s b y → WritesTo s dst d → Advances s 4 →
      exec (.lt a b dst) s =
        .next { s with mem := s.mem.write d (if x < y then 1 else 0), pc := s.pc + 4, status := none }) ∧
    OperandErrors (.lt a b dst) a b dst s ∧
    (∀ x y d, ReadsAs s a x → ReadsAs s b y → WritesTo s dst d → ¬ Advances s 4 →
      exec (.lt a b dst) s = raises .addressOverflow (.address .pcAdvance (s.pc + 4)) s)

/-- 45_compare.md R141, whole: the encoding of `eq`, its result, and its errors in order. -/
def Obligations.EqualsRule : Prop :=
  ∀ (s : State) (a b dst : Param),
    encode (.eq a b dst) =
      [8 + 100 * a.mode.digit + 1000 * b.mode.digit + 10000 * dst.mode.digit, a.raw, b.raw, dst.raw] ∧
    (∀ x y d, ReadsAs s a x → ReadsAs s b y → WritesTo s dst d → Advances s 4 →
      exec (.eq a b dst) s =
        .next { s with mem := s.mem.write d (if x = y then 1 else 0), pc := s.pc + 4, status := none }) ∧
    OperandErrors (.eq a b dst) a b dst s ∧
    (∀ x y d, ReadsAs s a x → ReadsAs s b y → WritesTo s dst d → ¬ Advances s 4 →
      exec (.eq a b dst) s = raises .addressOverflow (.address .pcAdvance (s.pc + 4)) s)

/-- 43_io.md R120: `in` takes the front of the queue into its destination and advances by 2. -/
def Obligations.InputCompletes : Prop :=
  ∀ (s : State) (dst : Param) (m2 m3 : Mode) (d : Nat) (v : Int) (rest : List Int), WritesTo s dst d →
    s.inq = v :: rest → Advances s 2 →
    exec (.input dst m2 m3) s =
      .next { s with mem := s.mem.write d v, pc := s.pc + 2, inq := rest, status := none }

/-- 43_io.md R120, 70_reset_and_hazards.md R205: the errors of `in` in order; on an empty queue it fails and commits
nothing. Rests on decision D7 (the destination before the queue), D13 and D15. -/
def Obligations.InputErrorsInOrder : Prop :=
  ∀ (s : State) (dst : Param) (m2 m3 : Mode),
    (dst.mode = .immediate → exec (.input dst m2 m3) s = raises .invalidWriteMode (.writeSlot .one) s) ∧
    (∀ v, BadAddress s dst v → exec (.input dst m2 m3) s = raises .addressOverflow (.address (.slot .one) v) s) ∧
    (∀ d, WritesTo s dst d → s.inq = [] → exec (.input dst m2 m3) s = raises .inputExhausted .nothing s) ∧
    (∀ d, WritesTo s dst d → s.inq ≠ [] → ¬ Advances s 2 →
      exec (.input dst m2 m3) s = raises .addressOverflow (.address .pcAdvance (s.pc + 2)) s)

/-- 43_io.md R121, whole: the encoding of `out`, its effect (`lastOut`, the advanced `pc`, the `Ready` status), and its
errors. -/
def Obligations.OutputRule : Prop :=
  ∀ (s : State) (a : Param) (m2 m3 : Mode),
    encode (.output a m2 m3) = [4 + 100 * a.mode.digit + 1000 * m2.digit + 10000 * m3.digit, a.raw] ∧
    (∀ v, ReadsAs s a v → Advances s 2 →
      exec (.output a m2 m3) s =
        .next { s with pc := s.pc + 2, lastOut := some v, status := some (.ready v) }) ∧
    (∀ v, BadAddress s a v → exec (.output a m2 m3) s = raises .addressOverflow (.address (.slot .one) v) s) ∧
    (∀ v, ReadsAs s a v → ¬ Advances s 2 →
      exec (.output a m2 m3) s = raises .addressOverflow (.address .pcAdvance (s.pc + 2)) s)

/-- 44_jump.md R130: `jt` goes to its target on any non-zero value, and to `pc + 3` on 0. -/
def Obligations.JumpIfTrueCompletes : Prop :=
  ∀ (s : State) (a target : Param) (m3 : Mode) (c v : Int), ReadsAs s a c → ReadsAs s target v →
    (c ≠ 0 → legalAddr v → exec (.jt a target m3) s = .next { s with pc := v.toNat, status := none }) ∧
    (c = 0 → Advances s 3 → exec (.jt a target m3) s = .next { s with pc := s.pc + 3, status := none })

/-- 44_jump.md R131: `jf` goes to its target on 0 only, and to `pc + 3` otherwise. -/
def Obligations.JumpIfFalseCompletes : Prop :=
  ∀ (s : State) (a target : Param) (m3 : Mode) (c v : Int), ReadsAs s a c → ReadsAs s target v →
    (c = 0 → legalAddr v → exec (.jf a target m3) s = .next { s with pc := v.toNat, status := none }) ∧
    (c ≠ 0 → Advances s 3 → exec (.jf a target m3) s = .next { s with pc := s.pc + 3, status := none })

/-- 44_jump.md R130, R131, 41_step.md R102: both operands are resolved whether or not the jump is taken; a taken jump
checks its target, another its advance. Rests on decisions D7, D13 and D15. -/
def Obligations.JumpErrorsInOrder : Prop :=
  ∀ (s : State) (a target : Param) (m3 : Mode),
    JumpOperandErrors (.jt a target m3) a target s ∧ JumpOperandErrors (.jf a target m3) a target s ∧
    (∀ c v, ReadsAs s a c → ReadsAs s target v → c ≠ 0 → ¬ legalAddr v →
      exec (.jt a target m3) s = raises .addressOverflow (.address .target v) s) ∧
    (∀ c v, ReadsAs s a c → ReadsAs s target v → c = 0 → ¬ legalAddr v →
      exec (.jf a target m3) s = raises .addressOverflow (.address .target v) s) ∧
    (∀ c v, ReadsAs s a c → ReadsAs s target v → c = 0 → ¬ Advances s 3 →
      exec (.jt a target m3) s = raises .addressOverflow (.address .pcAdvance (s.pc + 3)) s) ∧
    (∀ c v, ReadsAs s a c → ReadsAs s target v → c ≠ 0 → ¬ Advances s 3 →
      exec (.jf a target m3) s = raises .addressOverflow (.address .pcAdvance (s.pc + 3)) s)

/-- 46_relbase.md R150: `arb` adds its operand to `rb` and advances by 2; on a negative result it does so under
`allow`, and raises `AddressOverflow(rb, r)` under `fault`. The policy is the spec's open parameter (decision D12). -/
def Obligations.AdjustRelativeBaseCompletes : Prop :=
  ∀ (s : State) (a : Param) (m2 m3 : Mode) (v : Int), ReadsAs s a v → inW (s.rb + v) → Advances s 2 →
    (0 ≤ s.rb + v →
      exec (.arb a m2 m3) s = .next { s with rb := s.rb + v, pc := s.pc + 2, status := none }) ∧
    (s.rb + v < 0 → exec (.arb a m2 m3) s =
      if Config.rbNegPolicy = .allow then .next { s with rb := s.rb + v, pc := s.pc + 2, status := none }
      else raises .addressOverflow (.address .rb (s.rb + v)) s)

/-- 46_relbase.md R150: the errors of `arb`, in order; the last for every sum that the policy lets by. Rests on decisions
D4, D7, D12, D13 and D15. -/
def Obligations.AdjustRelativeBaseErrorsInOrder : Prop :=
  ∀ (s : State) (a : Param) (m2 m3 : Mode),
    (∀ v, BadAddress s a v → exec (.arb a m2 m3) s = raises .addressOverflow (.address (.slot .one) v) s) ∧
    (∀ v, ReadsAs s a v → ¬ inW (s.rb + v) →
      exec (.arb a m2 m3) s = raises .arithmeticOverflow (.arithmetic 9 (s.rb + v)) s) ∧
    (∀ v, ReadsAs s a v → inW (s.rb + v) → 0 ≤ s.rb + v ∨ Config.rbNegPolicy = .allow → ¬ Advances s 2 →
      exec (.arb a m2 m3) s = raises .addressOverflow (.address .pcAdvance (s.pc + 2)) s)

/-- 46_relbase.md R150, 10_state.md R25: `arb` on a negative result under each value of `RB_NEG_POLICY`: under `allow`
it commits where `pc` can advance and raises `AddressOverflow(pcAdvance, pc+2)` where it cannot, under `fault` it raises
`AddressOverflow(rb, r)`, so it never commits a negative `rb` there. The instruction is the body under this hardware's
policy. Rests on decisions D12, D13 and D15. -/
def Obligations.NegativeRelativeBaseFollowsThePolicy : Prop :=
  ∀ (s : State) (a : Param) (m2 m3 : Mode) (v : Int), ReadsAs s a v → inW (s.rb + v) → s.rb + v < 0 →
    exec (.arb a m2 m3) s = finish s (arbBody Config.rbNegPolicy a s) ∧
    finish s (arbBody .fault a s) = raises .addressOverflow (.address .rb (s.rb + v)) s ∧
    (Advances s 2 →
      finish s (arbBody .allow a s) = .next { s with rb := s.rb + v, pc := s.pc + 2, status := none }) ∧
    (¬ Advances s 2 →
      finish s (arbBody .allow a s) = raises .addressOverflow (.address .pcAdvance (s.pc + 2)) s)

/-- 47_halt.md R160: `hlt` returns `Halted` with the last output and changes nothing of the machine; without an output
it raises `NoOutputProduced`. Rests on decisions D10, D11 and D15. -/
def Obligations.HaltCompletes : Prop :=
  ∀ (s : State) (m1 m2 m3 : Mode),
    (∀ v, s.lastOut = some v → exec (.hlt m1 m2 m3) s = .next { s with status := some (.halted v) }) ∧
    (s.lastOut = none → exec (.hlt m1 m2 m3) s = raises .noOutputProduced .nothing s)

/-- 47_halt.md R160, 41_step.md R103: a step after `Halted(v)` returns `Halted(v)` again and changes nothing. Rests on
decision D10. -/
def Obligations.HaltRepeats : Prop :=
  ∀ (s t : State) (v : Int), step s = .next t → t.status = some (.halted v) → step t = .next t

/-! ### Frames -/

/-- The frame of `add`, `mul`, `lt` and `eq` (42_arith.md, 45_compare.md, 41_step.md R95): `rb`, the queue and `lastOut`
are unchanged; no cell but the write target's changes, and none where the write target is refused; the length is the
old one or reaches just past the target; `FAULT` changes only by an error. -/
def Obligations.ThreeSlotFrame : Prop :=
  ∀ (i : Instr) (a b dst : Param) (s t : State),
    i = .add a b dst ∨ i = .mul a b dst ∨ i = .lt a b dst ∨ i = .eq a b dst → exec i s = .next t →
    t.rb = s.rb ∧ t.inq = s.inq ∧ t.lastOut = s.lastOut ∧ (t.ranWell → t.fault = s.fault) ∧
    (∀ x, writeTarget s .three dst ≠ .ok x → t.mem.read x = s.mem.read x) ∧
    (t.mem.len = s.mem.len ∨ ∃ d, writeTarget s .three dst = .ok d ∧ t.mem.len = max s.mem.len (d + 1)) ∧
    (t.ranWell = false → t.mem = s.mem ∧ t.pc = s.pc)

/-- The frame of `in` (43_io.md R120, 41_step.md R95): `rb` and `lastOut` are unchanged; no cell but the write target's
changes; the queue loses its front entry or nothing; `FAULT` changes only by an error, which changes nothing else. -/
def Obligations.InputFrame : Prop :=
  ∀ (dst : Param) (m2 m3 : Mode) (s t : State), exec (.input dst m2 m3) s = .next t →
    t.rb = s.rb ∧ t.lastOut = s.lastOut ∧ (t.ranWell → t.fault = s.fault ∧ t.inq = s.inq.tail) ∧
    (∀ x, writeTarget s .one dst ≠ .ok x → t.mem.read x = s.mem.read x) ∧
    (t.mem.len = s.mem.len ∨ ∃ d, writeTarget s .one dst = .ok d ∧ t.mem.len = max s.mem.len (d + 1)) ∧
    (t.ranWell = false → t.mem = s.mem ∧ t.pc = s.pc ∧ t.inq = s.inq)

/-- The frame of `out`, `jt`, `jf`, `arb` and `hlt`, which store nothing (43_io.md R121, 44_jump.md, 46_relbase.md,
47_halt.md): every cell, the length and the queue are unchanged; `rb` changes by `arb` only and `lastOut` by `out`
only; `FAULT` changes only by an error, which leaves `pc`, `rb` and `lastOut`. -/
def Obligations.NonStoringFrame : Prop :=
  ∀ (i : Instr) (a b : Param) (m1 m2 m3 : Mode) (s t : State),
    i = .output a m2 m3 ∨ i = .jt a b m3 ∨ i = .jf a b m3 ∨ i = .arb a m2 m3 ∨ i = .hlt m1 m2 m3 →
    exec i s = .next t →
    (∀ x, t.mem.read x = s.mem.read x) ∧ t.mem.len = s.mem.len ∧ t.inq = s.inq ∧
    (i ≠ .arb a m2 m3 → t.rb = s.rb) ∧ (i ≠ .output a m2 m3 → t.lastOut = s.lastOut) ∧
    (t.ranWell → t.fault = s.fault) ∧
    (t.ranWell = false → t.pc = s.pc ∧ t.rb = s.rb ∧ t.lastOut = s.lastOut)

/-! ### The host's operations (spec/41_step.md, 60_exceptions.md) -/

/-- 41_step.md R92: a step call is refused on a faulted instance; otherwise it executes one instruction, and returns its
status or goes on where it gave none. Under no fuel there is no result yet (R97). -/
def Obligations.StepCallFollowsTheLoop : Prop :=
  ∀ (fuel : Nat) (s : State),
    stepCall 0 s = .noResult s ∧ (s.fault ≠ none → stepCall (fuel + 1) s = .refused .faulted) ∧
    ∀ t, step s = .next t →
      (t.status = none → stepCall (fuel + 1) s = stepCall fuel t) ∧
      ∀ st, t.status = some st → stepCall (fuel + 1) s = .returned t st

/-- 41_step.md R97: what a step call returns does not depend on the fuel, once there is enough of it. -/
def Obligations.StepCallResultIgnoresExtraFuel : Prop :=
  ∀ (fuel more : Nat) (s t : State) (st : Status), stepCall fuel s = .returned t st →
    stepCall (fuel + more) s = .returned t st

/-- 41_step.md R91, R96, 60_exceptions.md R171, R177: what a returned status says of the state the call leaves. `Ready`
and `Halted` carry the last output and leave the instance steppable; `Error` leaves it faulted with the same kind, code
and detail at the `pc` it stopped at. -/
def Obligations.ReturnedStatusDescribesTheState : Prop :=
  ∀ (fuel : Nat) (s t : State) (st : Status), stepCall fuel s = .returned t st →
    match st with
    | .ready v => t.lastOut = some v ∧ t.fault = none
    | .halted v => t.lastOut = some v ∧ t.fault = none
    | .error kind code info => t.fault = some ⟨kind, code, t.pc, info⟩ ∧ code = errorCode kind

/-- 43_io.md R122: the values a step call takes from the queue are those its `in` instructions stored, one each and in
the order they were executed, and they were the front of the queue; what the call leaves is the rest. So too for a call
that has not returned yet. -/
def Obligations.StepCallTakesInputsInOrder : Prop :=
  ∀ (fuel : Nat) (s t : State),
    (∀ st, stepCall fuel s = .returned t st → s.inq = inputsStored fuel s ++ t.inq) ∧
    (stepCall fuel s = .noResult t → s.inq = inputsStored fuel s ++ t.inq)

/-- 41_step.md R99: `add_input` appends its value and changes nothing else; under a bound a full queue is refused. Rests
on decision D24 (the capacity). -/
def Obligations.AddInputAppendsAtTheBack : Prop :=
  ∀ (s : State) (v : Int), inW v →
    addInput v s = .next { s with inq := s.inq ++ [v] } ∧
    ∀ c : Nat, (s.inq.length < c → addInputUnder (some c) v s = .next { s with inq := s.inq ++ [v] }) ∧
      (c ≤ s.inq.length → addInputUnder (some c) v s = .refused .queueFull)

/-! ### The amplifier ring (spec/60_exceptions.md), a host protocol -/

/-- 60_exceptions.md R182: the ring's setup constructs one instance per phase setting from the same program, queues each
its phase, and queues the initial signal 0 on instance 0. The premises on the values and the image's length are where
the model constructs at all (log entry 18), and `final`, empty at first, is a field of the model's own `Ring` (log entry
13). -/
def Obligations.RingSetupQueuesPhasesAndSignal : Prop :=
  ∀ (program : List Int) (ph : Int) (phs : List Int), (∀ v ∈ program, inW v) →
    program.length ≤ Config.addrLimit → (∀ v ∈ ph :: phs, inW v) →
    ∃ r, ringSetup program (ph :: phs) = .ok r ∧ r.index = 0 ∧ r.cpus.length = phs.length + 1 ∧
      r.final = List.replicate (phs.length + 1) none ∧
      r.cpus = { constructState program with inq := [ph, 0] } ::
        phs.map (fun p => { constructState program with inq := [p] })

/-- 60_exceptions.md R183, its three branches: on `Ready(v)`, or on `Halted(v)` of an instance that is not the last, the
ring forwards `v` to the next instance's queue and moves on to it; on the last instance's halt it stops with `v`; on an
error it stops and fails with that error. Rests on decision D18 for forwarding on a non-final halt; the field `final` is
the model's (log entry 13). -/
def Obligations.RingForwardsOrStops : Prop :=
  ∀ (fuel : Nat) (r : Ring) (s t : State), r.cpus[r.index]? = some s →
    (∀ v, inW v → stepCall fuel s = .returned t (.ready v) →
      ∃ u, (r.cpus.set r.index t)[(r.index + 1) % r.cpus.length]? = some u ∧
        ringPass fuel r = .running
          { r with cpus := (r.cpus.set r.index t).set ((r.index + 1) % r.cpus.length) { u with inq := u.inq ++ [v] },
                   index := (r.index + 1) % r.cpus.length }) ∧
    (∀ v, inW v → stepCall fuel s = .returned t (.halted v) → r.index + 1 ≠ r.cpus.length →
      ∃ u, (r.cpus.set r.index t)[(r.index + 1) % r.cpus.length]? = some u ∧
        ringPass fuel r = .running
          { cpus := (r.cpus.set r.index t).set ((r.index + 1) % r.cpus.length) { u with inq := u.inq ++ [v] },
            index := (r.index + 1) % r.cpus.length, final := r.final.set r.index (some v) }) ∧
    (∀ v, stepCall fuel s = .returned t (.halted v) → r.index + 1 = r.cpus.length →
      ringPass fuel r = .stopped
        { r with cpus := r.cpus.set r.index t, final := r.final.set r.index (some v) } v) ∧
    ∀ (kind : ErrorKind) (code : Nat) (info : ErrorInfo), stepCall fuel s = .returned t (.error kind code info) →
      ringPass fuel r = .failed { r with cpus := r.cpus.set r.index t } kind code info
end

