-- ==== Sys2Proof/Laws/Decode.lean ====
section
/-! SUPPORT. Everything the decoder's parts can answer. -/

namespace Sys2Proof

@[simp] theorem modeOfDigit_digit (m : Mode) : modeOfDigit m.digit = some m := by cases m <;> rfl

@[simp] theorem paramOf_mode_raw (p : Param) : paramOf p.mode p.raw = p := by cases p <;> rfl

@[simp] theorem mode_paramOf (m : Mode) (raw : Int) : (paramOf m raw).mode = m := by cases m <;> rfl

@[simp] theorem raw_paramOf (m : Mode) (raw : Int) : (paramOf m raw).raw = raw := by cases m <;> rfl

theorem modeOfDigit_eq_some {d : Int} {m : Mode} : modeOfDigit d = some m ↔ d = m.digit := by
  unfold modeOfDigit
  cases m <;> simp only [Mode.digit] <;> split_ifs <;> simp_all

theorem modeOfDigit_eq_none {d : Int} : modeOfDigit d = none ↔ d ≠ 0 ∧ d ≠ 1 ∧ d ≠ 2 := by
  unfold modeOfDigit; split_ifs <;> simp_all

theorem digit_bounds (m : Mode) : 0 ≤ m.digit ∧ m.digit ≤ 2 := by cases m <;> decide

theorem formParam_eq_ok {k : Slot} {digit raw : Int} {p : Param} :
    formParam k digit raw = .ok p ↔ ∃ m, modeOfDigit digit = some m ∧ p = paramOf m raw := by
  unfold formParam; split <;> simp_all [eq_comm (a := p)]

theorem formParam_eq_error {k : Slot} {digit raw : Int} {e : MachineError} :
    formParam k digit raw = .error e ↔ modeOfDigit digit = none ∧ e = .unknownMode k digit := by
  unfold formParam; split <;> simp_all [eq_comm (a := e)]

end Sys2Proof
end

