-- ==== Sys2Proof/Laws/Driver.lean ====
section
/-! SUPPORT. Everything the host's operations can answer. -/

namespace Sys2Proof.Machine

/-- `add_input` with a value that fits appends it. -/
theorem addInput_of_inW {v : Int} {s : State} (h : inW v) : addInput v s = .next { s with inq := s.inq ++ [v] } := by
  simp only [addInput, addInputUnder]
  rw [if_neg (not_not.mpr h)]
  rfl

/-- `add_input` with a value that does not fit is refused. -/
theorem addInput_of_not_inW {v : Int} {s : State} (h : ¬ inW v) : addInput v s = .refused .valueOutOfRange := by
  simp only [addInput, addInputUnder]
  rw [if_pos h]

theorem addInput_next {v : Int} {s t : State} (h : addInput v s = .next t) :
    inW v ∧ t = { s with inq := s.inq ++ [v] } := by
  by_cases hv : inW v
  · rw [addInput_of_inW hv] at h
    exact ⟨hv, (Host.Outcome.next.inj h).symm⟩
  · rw [addInput_of_not_inW hv] at h
    cases h

theorem construct_next {program : List Int} {s : State} (h : construct program = .next s) :
    (∀ v ∈ program, inW v) ∧ program.length ≤ Config.addrLimit ∧ s = constructState program := by
  simp only [construct] at h
  split at h
  · cases h
  · rename_i hv
    split at h
    · cases h
    · rename_i hl
      exact ⟨not_not.mp hv, not_lt.mp hl, (Host.Outcome.next.inj h).symm⟩

/-- A single-instance run is the run of what `construct` makes of the image. -/
theorem runSingle_of_construct {fuel calls : Nat} {program inputs : List Int} {s : State}
    (h : construct program = .next s) :
    runSingle fuel calls program inputs =
      runOps fuel (inputs.map HostOp.addInput ++ List.replicate calls HostOp.step) ⟨s, []⟩ := by
  simp only [runSingle, h]

/-- There is no single-instance run of an image that `construct` refuses. -/
theorem runSingle_of_refused {fuel calls : Nat} {program inputs : List Int} {why : Refusal}
    (h : construct program = .refused why) : runSingle fuel calls program inputs = .notConstructed why := by
  simp only [runSingle, h]

/-- An instruction that returns no status lets the step call go on. -/
theorem stepCall_continues {fuel : Nat} {s t : State} (h : step s = .next t) (hst : t.status = none) :
    stepCall (fuel + 1) s = stepCall fuel t := by
  simp only [stepCall, h, hst]

/-- The first status is what the step call returns. -/
theorem stepCall_returns {fuel : Nat} {s t : State} {st : Status} (h : step s = .next t)
    (hst : t.status = some st) : stepCall (fuel + 1) s = .returned t st := by
  simp only [stepCall, h, hst]

theorem stepCall_of_refused {fuel : Nat} {s : State} {r : Refusal} (h : step s = .refused r) :
    stepCall (fuel + 1) s = .refused r := by
  simp only [stepCall, h]

end Sys2Proof.Machine
end

