-- ==== Sys2Proof/Laws/Memory.lean ====
section
/-! SUPPORT. The laws of memory: what a read gives after a write, what the length becomes, and that every memory
operation keeps the canonical form. -/

namespace Sys2Proof.Machine

theorem lookupCell_filter (p : Nat → Bool) (cells : List (Nat × Int)) (x : Nat) :
    lookupCell (cells.filter (fun e => p e.1)) x = if p x then lookupCell cells x else 0 := by
  induction cells with
  | nil => simp [lookupCell]
  | cons e rest ih =>
    obtain ⟨b, u⟩ := e
    by_cases hb : p b <;> by_cases hx : b = x <;> simp_all [lookupCell]

theorem lookupCell_insertCell (cells : List (Nat × Int)) (a : Nat) (v : Int) (x : Nat) :
    lookupCell (insertCell cells a v) x = if x = a then v else lookupCell cells x := by
  induction cells with
  | nil => by_cases h : a = x <;> simp [insertCell, lookupCell, h, eq_comm]
  | cons e rest ih =>
    obtain ⟨b, u⟩ := e
    simp only [insertCell]
    split
    · by_cases h : a = x <;> simp [lookupCell, h, eq_comm]
    · split
      · subst a
        by_cases h : b = x
        · simp [lookupCell, h]
        · simp [lookupCell, h, Ne.symm h]
      · by_cases h : b = x
        · subst h; simp [lookupCell, Ne.symm ‹¬a = b›]
        · simp [lookupCell, h, ih]

theorem lookupCell_setCell (cells : List (Nat × Int)) (a : Nat) (v : Int) (x : Nat) :
    lookupCell (setCell cells a v) x = if x = a then v else lookupCell cells x := by
  unfold setCell
  split
  · rw [lookupCell_filter (fun b => decide (b ≠ a))]
    by_cases h : x = a <;> simp_all
  · exact lookupCell_insertCell ..

@[simp] theorem read_growTo (m : Memory) (n x : Nat) : (m.growTo n).read x = m.read x := by
  unfold Memory.growTo Memory.read
  split
  · rw [lookupCell_filter (fun b => decide (b < m.len))]
    by_cases h : x < m.len
    · simp [h, Nat.lt_trans h ‹m.len < n›]
    · simp [h]
  · rfl

@[simp] theorem len_growTo (m : Memory) (n : Nat) : (m.growTo n).len = max m.len n := by
  unfold Memory.growTo
  split
  · exact (Nat.max_eq_right (Nat.le_of_lt ‹_›)).symm
  · exact (Nat.max_eq_left (Nat.not_lt.mp ‹_›)).symm

@[simp] theorem len_write (m : Memory) (a : Nat) (v : Int) : (m.write a v).len = max m.len (a + 1) := by
  simp [Memory.write]

/-- A read after a write gives the value written at its cell, and elsewhere what it gave before
(20_memory.md R42, R43). -/
theorem read_write (m : Memory) (a : Nat) (v : Int) (x : Nat) :
    (m.write a v).read x = if x = a then v else m.read x := by
  have h := read_growTo m (a + 1) x
  have hl := len_growTo m (a + 1)
  simp only [Memory.read, Memory.write, lookupCell_setCell] at h ⊢
  by_cases hx : x = a
  · subst hx; simp
  · simpa [hx] using h

@[simp] theorem fetch_eq_read (m : Memory) (i : Nat) : m.fetch i = m.read i := rfl

@[simp] theorem read_past_end {m : Memory} {a : Nat} (h : m.len ≤ a) : m.read a = 0 := by
  simp [Memory.read, Nat.not_lt.mpr h]

theorem mem_insertCell {cells : List (Nat × Int)} {a : Nat} {v : Int} {e : Nat × Int}
    (h : e ∈ insertCell cells a v) : e = (a, v) ∨ e ∈ cells := by
  induction cells with
  | nil => simpa [insertCell] using h
  | cons c rest ih =>
    obtain ⟨b, u⟩ := c
    simp only [insertCell] at h
    split at h
    · simpa using h
    · split at h
      · rcases List.mem_cons.mp h with h | h
        · exact .inl h
        · exact .inr (List.mem_cons_of_mem _ h)
      · rcases List.mem_cons.mp h with h | h
        · exact .inr (h ▸ List.mem_cons_self)
        · exact (ih h).imp_right (List.mem_cons_of_mem _)

theorem insertCell_sorted {cells : List (Nat × Int)} (a : Nat) (v : Int)
    (h : cells.Pairwise (fun x y => x.1 < y.1)) : (insertCell cells a v).Pairwise (fun x y => x.1 < y.1) := by
  induction cells with
  | nil => simp [insertCell]
  | cons c rest ih =>
    obtain ⟨b, u⟩ := c
    rw [List.pairwise_cons] at h
    simp only [insertCell]
    split
    · refine List.pairwise_cons.mpr ⟨fun e he => ?_, List.pairwise_cons.mpr h⟩
      rcases List.mem_cons.mp he with rfl | he
      · assumption
      · exact Nat.lt_trans ‹a < b› (h.1 e he)
    · split
      · subst a; exact List.pairwise_cons.mpr h
      · refine List.pairwise_cons.mpr ⟨fun e he => ?_, ih h.2⟩
        rcases mem_insertCell he with rfl | he
        · show b < a; omega
        · exact h.1 e he

theorem mem_setCell {cells : List (Nat × Int)} {a : Nat} {v : Int} {e : Nat × Int}
    (h : e ∈ setCell cells a v) : (e = (a, v) ∧ v ≠ 0) ∨ e ∈ cells := by
  unfold setCell at h
  split at h
  · exact .inr (List.mem_filter.mp h).1
  · exact (mem_insertCell h).imp_left (⟨·, ‹_›⟩)

theorem setCell_sorted {cells : List (Nat × Int)} (a : Nat) (v : Int)
    (h : cells.Pairwise (fun x y => x.1 < y.1)) : (setCell cells a v).Pairwise (fun x y => x.1 < y.1) := by
  unfold setCell
  split
  · exact h.filter _
  · exact insertCell_sorted a v h

theorem mem_growTo {m : Memory} {n : Nat} {e : Nat × Int} (h : e ∈ (m.growTo n).cells) : e ∈ m.cells := by
  unfold Memory.growTo at h
  split at h
  · exact (List.mem_filter.mp h).1
  · exact h

/-- Growing keeps the canonical form. -/
theorem wf_growTo {m : Memory} (h : m.wf) (n : Nat) : (m.growTo n).wf := by
  unfold Memory.growTo
  split
  · exact ⟨h.1.filter _, fun e he =>
      ⟨(h.2 e (List.mem_filter.mp he).1).1, Nat.lt_trans (h.2 e (List.mem_filter.mp he).1).2 ‹_›⟩⟩
  · exact h

/-- A write keeps the canonical form. -/
theorem wf_write {m : Memory} (h : m.wf) (a : Nat) (v : Int) : (m.write a v).wf := by
  have hg := wf_growTo h (a + 1)
  refine ⟨setCell_sorted a v hg.1, fun e he => ?_⟩
  rcases mem_setCell he with ⟨rfl, hv⟩ | he
  · exact ⟨hv, by simp [Memory.write]⟩
  · exact hg.2 e he

/-- The listed values after a write are the written one and old ones. -/
theorem mem_write {m : Memory} {a : Nat} {v : Int} {e : Nat × Int} (h : e ∈ (m.write a v).cells) :
    e = (a, v) ∨ e ∈ m.cells := by
  rcases mem_setCell h with ⟨h, -⟩ | h
  · exact .inl h
  · exact .inr (mem_growTo h)

/-- Placing a run of cells keeps the canonical form. -/
theorem wf_placeCells {m : Memory} (h : m.wf) (a : Nat) (vs : List Int) : (m.placeCells a vs).wf := by
  induction vs generalizing m a with
  | nil => exact h
  | cons v rest ih =>
    simp only [Memory.placeCells]
    split
    · exact ih (wf_write h a v) _
    · exact ih h _

theorem mem_imageCells {start : Nat} {program : List Int} {e : Nat × Int} (h : e ∈ imageCells start program) :
    e.2 ≠ 0 ∧ e.2 ∈ program ∧ start ≤ e.1 ∧ e.1 < start + program.length := by
  induction program generalizing start with
  | nil => simp [imageCells] at h
  | cons v rest ih =>
    simp only [imageCells] at h
    split at h
    · obtain ⟨h1, h2, h3, h4⟩ := ih h
      exact ⟨h1, List.mem_cons_of_mem _ h2, by omega, by simp; omega⟩
    · rcases List.mem_cons.mp h with rfl | h
      · exact ⟨‹_›, List.mem_cons_self, le_refl _, by simp⟩
      · obtain ⟨h1, h2, h3, h4⟩ := ih h
        exact ⟨h1, List.mem_cons_of_mem _ h2, by omega, by simp; omega⟩

/-- A program image is placed in canonical form. -/
theorem wf_ofImage (program : List Int) : (Memory.ofImage program).wf := by
  refine ⟨?_, fun e he => ?_⟩
  · show (imageCells 0 program).Pairwise _
    generalize 0 = start
    induction program generalizing start with
    | nil => simp [imageCells]
    | cons v rest ih =>
      simp only [imageCells]
      split
      · exact ih _
      · exact List.pairwise_cons.mpr ⟨fun e he => by have := (mem_imageCells he).2.2.1; show start < e.1; omega, ih _⟩
  · have := mem_imageCells he
    exact ⟨this.1, by simpa [Memory.ofImage] using this.2.2.2⟩

theorem lookupCell_imageCells (start : Nat) (program : List Int) (i : Nat) :
    lookupCell (imageCells start program) (start + i) = program.getD i 0 := by
  induction program generalizing start i with
  | nil => simp [imageCells, lookupCell]
  | cons v rest ih =>
    simp only [imageCells]
    cases i with
    | zero =>
      split
      · have hnot : ∀ cells : List (Nat × Int), (∀ e ∈ cells, start < e.1) → lookupCell cells start = 0 := by
          intro cells
          induction cells with
          | nil => simp [lookupCell]
          | cons e cs ihc =>
            intro hc
            have h1 := hc e List.mem_cons_self
            simp only [lookupCell, show e.1 ≠ start by omega, if_false]
            exact ihc fun x hx => hc x (List.mem_cons_of_mem _ hx)
        simpa [‹v = 0›] using hnot _ fun e he => by have := (mem_imageCells he).2.2.1; omega
      · simp [lookupCell]
    | succ k =>
      have h := ih (start + 1) k
      rw [show start + 1 + k = start + (k + 1) by omega] at h
      split
      · simpa using h
      · simpa [lookupCell] using h

/-- The memory after reset is canonical. -/
theorem wf_reset : State.reset.mem.wf := by decide

end Sys2Proof.Machine
end

