-- ==== Sys2Proof/Laws/State.lean ====
section
/-! SUPPORT. Field by field, what each state update of Machine/Ops.lean leaves. -/

namespace Sys2Proof.Machine

@[simp] theorem continueAt_mem (s : State) (n : Nat) : (s.continueAt n).mem = s.mem := rfl
@[simp] theorem continueAt_pc (s : State) (n : Nat) : (s.continueAt n).pc = n := rfl
@[simp] theorem continueAt_rb (s : State) (n : Nat) : (s.continueAt n).rb = s.rb := rfl
@[simp] theorem continueAt_inq (s : State) (n : Nat) : (s.continueAt n).inq = s.inq := rfl
@[simp] theorem continueAt_lastOut (s : State) (n : Nat) : (s.continueAt n).lastOut = s.lastOut := rfl
@[simp] theorem continueAt_fault (s : State) (n : Nat) : (s.continueAt n).fault = s.fault := rfl
@[simp] theorem continueAt_status (s : State) (n : Nat) : (s.continueAt n).status = none := rfl

@[simp] theorem storeAt_mem (s : State) (d : Nat) (v : Int) : (s.storeAt d v).mem = s.mem.write d v := rfl
@[simp] theorem storeAt_pc (s : State) (d : Nat) (v : Int) : (s.storeAt d v).pc = s.pc := rfl
@[simp] theorem storeAt_rb (s : State) (d : Nat) (v : Int) : (s.storeAt d v).rb = s.rb := rfl
@[simp] theorem storeAt_inq (s : State) (d : Nat) (v : Int) : (s.storeAt d v).inq = s.inq := rfl
@[simp] theorem storeAt_lastOut (s : State) (d : Nat) (v : Int) : (s.storeAt d v).lastOut = s.lastOut := rfl
@[simp] theorem storeAt_fault (s : State) (d : Nat) (v : Int) : (s.storeAt d v).fault = s.fault := rfl
@[simp] theorem storeAt_status (s : State) (d : Nat) (v : Int) : (s.storeAt d v).status = s.status := rfl

@[simp] theorem errorState_mem (e : MachineError) (s : State) : (errorState e s).mem = s.mem := rfl
@[simp] theorem errorState_pc (e : MachineError) (s : State) : (errorState e s).pc = s.pc := rfl
@[simp] theorem errorState_rb (e : MachineError) (s : State) : (errorState e s).rb = s.rb := rfl
@[simp] theorem errorState_inq (e : MachineError) (s : State) : (errorState e s).inq = s.inq := rfl
@[simp] theorem errorState_lastOut (e : MachineError) (s : State) : (errorState e s).lastOut = s.lastOut := rfl
@[simp] theorem errorState_fault (e : MachineError) (s : State) :
    (errorState e s).fault = some ⟨errorKind e, errorCode (errorKind e), s.pc, errorInfo e⟩ := rfl
@[simp] theorem errorState_status (e : MachineError) (s : State) :
    (errorState e s).status = some (.error (errorKind e) (errorCode (errorKind e)) (errorInfo e)) := rfl

end Sys2Proof.Machine
end

