-- ==== Sys2Proof/Laws/Ops.lean ====
section
/-! SUPPORT. For each shared operation, everything it can answer. -/

namespace Sys2Proof.Machine

/-- `W` is 64, so `inW` is the range of a 64-bit signed value. -/
theorem inW_iff (v : Int) : inW v ↔ -9223372036854775808 ≤ v ∧ v ≤ 9223372036854775807 := by
  simp [inW, Config.cellWidth]

theorem addrLimit_eq : Config.addrLimit = 9223372036854775808 := by simp [Config.addrLimit, Config.cellWidth]

/-- A legal address is exactly a non-negative representable value (decision D3). -/
theorem legalAddr_iff (a : Int) : legalAddr a ↔ 0 ≤ a ∧ inW a := by
  rw [inW_iff, legalAddr, addrLimit_eq]; omega

theorem bind_eq_ok {α β : Type} {x : Except MachineError α} {f : α → Except MachineError β} {b : β} :
    (x >>= f) = .ok b ↔ ∃ a, x = .ok a ∧ f a = .ok b := by
  cases x <;> simp [bind, Except.bind]

theorem bind_eq_error {α β : Type} {x : Except MachineError α} {f : α → Except MachineError β} {e : MachineError} :
    (x >>= f) = .error e ↔ x = .error e ∨ ∃ a, x = .ok a ∧ f a = .error e := by
  cases x <;> simp [bind, Except.bind]

/-- An instruction's body ends in a next state, the committed one or the error's. -/
theorem finish_eq_next {s t : State} {r : Except MachineError State} :
    finish s r = .next t ↔ r = .ok t ∨ ∃ e, r = .error e ∧ t = errorState e s := by
  cases r <;> simp [finish, raise, eq_comm]

theorem finish_ok (s t : State) : finish s (.ok t) = .next t := rfl

theorem finish_error (s : State) (e : MachineError) : finish s (.error e) = .next (errorState e s) := rfl

theorem checkAddr_eq_ok {a : Int} {use : AddrUse} {n : Nat} :
    checkAddr a use = .ok n ↔ legalAddr a ∧ n = a.toNat := by
  unfold checkAddr
  split
  · exact ⟨fun h => ⟨‹_›, (Except.ok.inj h).symm⟩, fun h => h.2 ▸ rfl⟩
  · exact ⟨(nomatch ·), fun h => absurd h.1 ‹_›⟩

theorem checkAddr_eq_error {a : Int} {use : AddrUse} {e : MachineError} :
    checkAddr a use = .error e ↔ ¬ legalAddr a ∧ e = .addressOverflow use a := by
  unfold checkAddr
  split
  · exact ⟨(nomatch ·), fun h => absurd ‹_› h.1⟩
  · exact ⟨fun h => ⟨‹_›, (Except.error.inj h).symm⟩, fun h => h.2 ▸ rfl⟩

/-- A checked address lies in the address space. -/
theorem lt_of_checkAddr {a : Int} {use : AddrUse} {n : Nat} (h : checkAddr a use = .ok n) : n < Config.addrLimit := by
  obtain ⟨⟨h0, h1⟩, rfl⟩ := checkAddr_eq_ok.mp h; omega

theorem nextPc_eq_ok {s : State} {k n : Nat} : nextPc s k = .ok n ↔ s.pc + k < Config.addrLimit ∧ n = s.pc + k := by
  rw [nextPc, checkAddr_eq_ok, legalAddr]; constructor <;> rintro ⟨h, rfl⟩ <;> constructor <;> omega

theorem nextPc_eq_error {s : State} {k : Nat} {e : MachineError} :
    nextPc s k = .error e ↔ Config.addrLimit ≤ s.pc + k ∧ e = .addressOverflow .pcAdvance ((s.pc : Int) + k) := by
  rw [nextPc, checkAddr_eq_error, legalAddr]; constructor <;> rintro ⟨h, rfl⟩ <;> constructor <;> first | rfl | omega

theorem popInput_eq_ok {s : State} {q : Int × List Int} : popInput s = .ok q ↔ s.inq = q.1 :: q.2 := by
  unfold popInput; obtain ⟨v, rest⟩ := q; split <;> simp_all

theorem popInput_eq_error {s : State} {e : MachineError} :
    popInput s = .error e ↔ s.inq = [] ∧ e = .inputExhausted := by
  unfold popInput; split <;> simp_all [eq_comm]

theorem narrow_eq_ok {op r v : Int} : narrow op r = .ok v ↔ inW r ∧ v = r := by
  unfold narrow
  split
  · exact ⟨fun h => ⟨‹_›, (Except.ok.inj h).symm⟩, fun h => h.2 ▸ rfl⟩
  · exact ⟨(nomatch ·), fun h => absurd h.1 ‹_›⟩

theorem narrow_eq_error {op r : Int} {e : MachineError} :
    narrow op r = .error e ↔ ¬ inW r ∧ e = .arithmeticOverflow op r := by
  unfold narrow
  split
  · exact ⟨(nomatch ·), fun h => absurd ‹_› h.1⟩
  · exact ⟨fun h => ⟨‹_›, (Except.error.inj h).symm⟩, fun h => h.2 ▸ rfl⟩

theorem inW_boolCell (b : Bool) : inW (boolCell b) := by cases b <;> decide

end Sys2Proof.Machine
end

