-- ==== Sys2Proof/Laws/Operands.lean ====
section
/-! SUPPORT. Everything the addressing-mode resolver can answer, in the statements' terms. -/

namespace Sys2Proof.Machine

theorem readsAs_immediate {s : State} {v x : Int} : ReadsAs s (.immediate v) x ↔ x = v := by
  simp only [ReadsAs, valueOf, addressOf, Param.raw, Option.some.injEq, eq_comm]

theorem readsAs_position {s : State} {a : Int} {x : Int} :
    ReadsAs s (.position a) x ↔ legalAddr a ∧ x = s.mem.read a.toNat := by
  simp only [ReadsAs, valueOf, addressOf]
  split
  · simp only [Option.some.injEq, eq_comm (b := x), iff_and_self]; exact fun _ => ‹_›
  · exact ⟨(nomatch ·), fun h => absurd h.1 ‹_›⟩

theorem readsAs_relative {s : State} {o : Int} {x : Int} :
    ReadsAs s (.relative o) x ↔ legalAddr (s.rb + o) ∧ x = s.mem.read (s.rb + o).toNat :=
  readsAs_position (s := s) (a := s.rb + o)

theorem writesTo_immediate {s : State} {v : Int} {d : Nat} : ¬ WritesTo s (.immediate v) d := by
  simp [WritesTo, cellOf, addressOf]

theorem writesTo_position {s : State} {a : Int} {d : Nat} :
    WritesTo s (.position a) d ↔ legalAddr a ∧ d = a.toNat := by
  simp only [WritesTo, cellOf, addressOf]
  split
  · simp only [Option.some.injEq, eq_comm (b := d), iff_and_self]; exact fun _ => ‹_›
  · exact ⟨(nomatch ·), fun h => absurd h.1 ‹_›⟩

theorem writesTo_relative {s : State} {o : Int} {d : Nat} :
    WritesTo s (.relative o) d ↔ legalAddr (s.rb + o) ∧ d = (s.rb + o).toNat :=
  writesTo_position (s := s) (a := s.rb + o)

theorem resolve_eq_ok {s : State} {k : Slot} {p : Param} {v : Int} : resolve s k p = .ok v ↔ ReadsAs s p v := by
  cases p <;>
    simp only [resolve, readsAs_immediate, readsAs_position, readsAs_relative, bind_eq_ok, checkAddr_eq_ok,
      Except.ok.injEq, eq_comm (b := v)]
  all_goals exact ⟨fun ⟨_, ⟨h, hn⟩, hv⟩ => ⟨h, hn ▸ hv⟩, fun ⟨h, hv⟩ => ⟨_, ⟨h, rfl⟩, hv⟩⟩

theorem resolve_eq_error {s : State} {k : Slot} {p : Param} {e : MachineError} :
    resolve s k p = .error e ↔ ∃ a, BadAddress s p a ∧ e = .addressOverflow (.slot k) a := by
  cases p <;> simp [resolve, BadAddress, addressOf, bind_eq_error, checkAddr_eq_error]

theorem writeTarget_eq_ok {s : State} {k : Slot} {p : Param} {d : Nat} :
    writeTarget s k p = .ok d ↔ WritesTo s p d := by
  cases p with
  | position a => exact checkAddr_eq_ok.trans writesTo_position.symm
  | immediate v => exact ⟨(nomatch ·), fun h => absurd h writesTo_immediate⟩
  | relative o => exact checkAddr_eq_ok.trans writesTo_relative.symm

theorem writeTarget_eq_error {s : State} {k : Slot} {p : Param} {e : MachineError} :
    writeTarget s k p = .error e ↔
      (p.mode = .immediate ∧ e = .invalidWriteMode k) ∨ ∃ a, BadAddress s p a ∧ e = .addressOverflow (.slot k) a := by
  cases p <;> simp [writeTarget, BadAddress, addressOf, checkAddr_eq_error, Param.mode, eq_comm (b := e)]

/-- A write target is a cell of the address space. -/
theorem lt_of_writesTo {s : State} {p : Param} {d : Nat} (h : WritesTo s p d) : d < Config.addrLimit := by
  cases p with
  | immediate v => exact absurd h writesTo_immediate
  | position a => exact lt_of_checkAddr (use := .target) (checkAddr_eq_ok.mpr (writesTo_position.mp h))
  | relative o => exact lt_of_checkAddr (use := .target) (checkAddr_eq_ok.mpr (writesTo_relative.mp h))

end Sys2Proof.Machine
end

