-- ==== Sys2Proof/Laws/Exec.lean ====
section
/-! SUPPORT. Everything each instruction body, `exec` and `step` can answer. -/

namespace Sys2Proof.Machine

theorem threeSlot_eq_ok {f : Int → Int → Except MachineError Int} {a b dst : Param} {s t : State} :
    threeSlot f a b dst s = .ok t ↔ ∃ x y d r, ReadsAs s a x ∧ ReadsAs s b y ∧ WritesTo s dst d ∧ f x y = .ok r ∧
      Advances s 4 ∧ t = (s.storeAt d r).continueAt (s.pc + 4) := by
  simp only [threeSlot, bind_eq_ok, resolve_eq_ok, writeTarget_eq_ok, nextPc_eq_ok, Except.ok.injEq]
  constructor
  · rintro ⟨x, hx, y, hy, d, hd, r, hr, n, ⟨hn, rfl⟩, rfl⟩
    exact ⟨x, y, d, r, hx, hy, hd, hr, hn, rfl⟩
  · rintro ⟨x, y, d, r, hx, hy, hd, hr, hn, rfl⟩
    exact ⟨x, hx, y, hy, d, hd, r, hr, _, ⟨hn, rfl⟩, rfl⟩

theorem threeSlot_eq_error {f : Int → Int → Except MachineError Int} {a b dst : Param} {s : State}
    {e : MachineError} :
    threeSlot f a b dst s = .error e ↔ resolve s .one a = .error e ∨ ∃ x, ReadsAs s a x ∧
      (resolve s .two b = .error e ∨ ∃ y, ReadsAs s b y ∧ (writeTarget s .three dst = .error e ∨
        ∃ d, WritesTo s dst d ∧ (f x y = .error e ∨ ∃ r, f x y = .ok r ∧ nextPc s 4 = .error e))) := by
  simp [threeSlot, bind_eq_error, resolve_eq_ok, writeTarget_eq_ok]

theorem inputBody_eq_ok {dst : Param} {s t : State} :
    inputBody dst s = .ok t ↔ ∃ d v rest, WritesTo s dst d ∧ s.inq = v :: rest ∧ Advances s 2 ∧
      t = { (s.storeAt d v).continueAt (s.pc + 2) with inq := rest } := by
  simp only [inputBody, bind_eq_ok, writeTarget_eq_ok, popInput_eq_ok, nextPc_eq_ok, Except.ok.injEq]
  constructor
  · rintro ⟨d, hd, ⟨v, rest⟩, hq, n, ⟨hn, rfl⟩, rfl⟩
    exact ⟨d, v, rest, hd, hq, hn, rfl⟩
  · rintro ⟨d, v, rest, hd, hq, hn, rfl⟩
    exact ⟨d, hd, (v, rest), hq, _, ⟨hn, rfl⟩, rfl⟩

theorem inputBody_eq_error {dst : Param} {s : State} {e : MachineError} :
    inputBody dst s = .error e ↔ writeTarget s .one dst = .error e ∨ ∃ d, WritesTo s dst d ∧
      (popInput s = .error e ∨ ∃ q, popInput s = .ok q ∧ nextPc s 2 = .error e) := by
  simp [inputBody, bind_eq_error, writeTarget_eq_ok]

theorem outputBody_eq_ok {a : Param} {s t : State} :
    outputBody a s = .ok t ↔ ∃ v, ReadsAs s a v ∧ Advances s 2 ∧
      t = { s with pc := s.pc + 2, lastOut := some v, status := some (.ready v) } := by
  simp only [outputBody, bind_eq_ok, resolve_eq_ok, nextPc_eq_ok, Except.ok.injEq]
  constructor
  · rintro ⟨v, hv, n, ⟨hn, rfl⟩, rfl⟩; exact ⟨v, hv, hn, rfl⟩
  · rintro ⟨v, hv, hn, rfl⟩; exact ⟨v, hv, _, ⟨hn, rfl⟩, rfl⟩

theorem outputBody_eq_error {a : Param} {s : State} {e : MachineError} :
    outputBody a s = .error e ↔ resolve s .one a = .error e ∨ ∃ v, ReadsAs s a v ∧ nextPc s 2 = .error e := by
  simp [outputBody, bind_eq_error, resolve_eq_ok]

theorem jumpNext_eq_ok {taken : Bool} {v : Int} {s : State} {n : Nat} :
    jumpNext taken v s = .ok n ↔
      (taken = true ∧ legalAddr v ∧ n = v.toNat) ∨ (taken = false ∧ Advances s 3 ∧ n = s.pc + 3) := by
  cases taken <;> simp [jumpNext, checkAddr_eq_ok, nextPc_eq_ok]

theorem jumpNext_eq_error {taken : Bool} {v : Int} {s : State} {e : MachineError} :
    jumpNext taken v s = .error e ↔ (taken = true ∧ ¬ legalAddr v ∧ e = .addressOverflow .target v) ∨
      (taken = false ∧ ¬ Advances s 3 ∧ e = .addressOverflow .pcAdvance ((s.pc : Int) + 3)) := by
  cases taken <;> simp [jumpNext, checkAddr_eq_error, nextPc_eq_error]

theorem jumpWhen_eq_ok {taken : Int → Bool} {a target : Param} {s t : State} :
    jumpWhen taken a target s = .ok t ↔ ∃ c v, ReadsAs s a c ∧ ReadsAs s target v ∧
      ((taken c = true ∧ legalAddr v ∧ t = s.continueAt v.toNat) ∨
       (taken c = false ∧ Advances s 3 ∧ t = s.continueAt (s.pc + 3))) := by
  simp only [jumpWhen, bind_eq_ok, resolve_eq_ok, jumpNext_eq_ok, Except.ok.injEq]
  constructor
  · rintro ⟨c, hc, v, hv, n, ⟨ht, h, rfl⟩ | ⟨ht, h, rfl⟩, rfl⟩
    · exact ⟨c, v, hc, hv, .inl ⟨ht, h, rfl⟩⟩
    · exact ⟨c, v, hc, hv, .inr ⟨ht, h, rfl⟩⟩
  · rintro ⟨c, v, hc, hv, ⟨ht, h, rfl⟩ | ⟨ht, h, rfl⟩⟩
    · exact ⟨c, hc, v, hv, _, .inl ⟨ht, h, rfl⟩, rfl⟩
    · exact ⟨c, hc, v, hv, _, .inr ⟨ht, h, rfl⟩, rfl⟩

theorem jumpWhen_eq_error {taken : Int → Bool} {a target : Param} {s : State} {e : MachineError} :
    jumpWhen taken a target s = .error e ↔ resolve s .one a = .error e ∨ ∃ c, ReadsAs s a c ∧
      (resolve s .two target = .error e ∨ ∃ v, ReadsAs s target v ∧ jumpNext (taken c) v s = .error e) := by
  simp [jumpWhen, bind_eq_error, resolve_eq_ok]

theorem checkRb_eq_ok {policy : Config.RbNegPolicy} {w r : Int} :
    checkRb policy w = .ok r ↔ (policy = .fault → 0 ≤ w) ∧ r = w := by
  have hneg : w < 0 → ¬ 0 ≤ w := fun h => Int.not_le.mpr h
  cases policy <;> by_cases h : w < 0 <;> simp [checkRb, h, eq_comm (a := r)]
  exact fun _ => Int.not_lt.mp h

theorem checkRb_eq_error {policy : Config.RbNegPolicy} {w : Int} {e : MachineError} :
    checkRb policy w = .error e ↔ policy = .fault ∧ w < 0 ∧ e = .addressOverflow .rb w := by
  unfold checkRb; cases policy <;> by_cases h : w < 0 <;> simp [h, eq_comm (a := e)]

theorem arbBody_eq_ok {policy : Config.RbNegPolicy} {a : Param} {s t : State} :
    arbBody policy a s = .ok t ↔ ∃ v, ReadsAs s a v ∧ inW (s.rb + v) ∧ (policy = .fault → 0 ≤ s.rb + v) ∧
      Advances s 2 ∧ t = { s.continueAt (s.pc + 2) with rb := s.rb + v } := by
  simp only [arbBody, bind_eq_ok, resolve_eq_ok, narrow_eq_ok, checkRb_eq_ok, nextPc_eq_ok, Except.ok.injEq]
  constructor
  · rintro ⟨v, hv, _, ⟨hw, rfl⟩, _, ⟨hp, rfl⟩, _, ⟨hn, rfl⟩, rfl⟩
    exact ⟨v, hv, hw, hp, hn, rfl⟩
  · rintro ⟨v, hv, hw, hp, hn, rfl⟩
    exact ⟨v, hv, _, ⟨hw, rfl⟩, _, ⟨hp, rfl⟩, _, ⟨hn, rfl⟩, rfl⟩

theorem arbBody_eq_error {policy : Config.RbNegPolicy} {a : Param} {s : State} {e : MachineError} :
    arbBody policy a s = .error e ↔ resolve s .one a = .error e ∨ ∃ v, ReadsAs s a v ∧
      (narrow 9 (s.rb + v) = .error e ∨ inW (s.rb + v) ∧ (checkRb policy (s.rb + v) = .error e ∨
        (policy = .fault → 0 ≤ s.rb + v) ∧ nextPc s 2 = .error e)) := by
  simp only [arbBody, bind_eq_error, resolve_eq_ok, narrow_eq_ok, checkRb_eq_ok, reduceCtorEq, and_false,
    exists_false, or_false]
  constructor
  · rintro (h | ⟨v, hv, h | ⟨_, ⟨hw, rfl⟩, h | ⟨_, ⟨hp, rfl⟩, h⟩⟩⟩)
    · exact .inl h
    · exact .inr ⟨v, hv, .inl h⟩
    · exact .inr ⟨v, hv, .inr ⟨hw, .inl h⟩⟩
    · exact .inr ⟨v, hv, .inr ⟨hw, .inr ⟨hp, h⟩⟩⟩
  · rintro (h | ⟨v, hv, h | ⟨hw, h | ⟨hp, h⟩⟩⟩)
    · exact .inl h
    · exact .inr ⟨v, hv, .inl h⟩
    · exact .inr ⟨v, hv, .inr ⟨_, ⟨hw, rfl⟩, .inl h⟩⟩
    · exact .inr ⟨v, hv, .inr ⟨_, ⟨hw, rfl⟩, .inr ⟨_, ⟨hp, rfl⟩, h⟩⟩⟩

theorem haltBody_eq_ok {s t : State} :
    haltBody s = .ok t ↔ ∃ v, s.lastOut = some v ∧ t = { s with status := some (.halted v) } := by
  unfold haltBody; split <;> simp_all [eq_comm (a := t)]

theorem haltBody_eq_error {s : State} {e : MachineError} :
    haltBody s = .error e ↔ s.lastOut = none ∧ e = .noOutputProduced := by
  unfold haltBody; split <;> simp_all [eq_comm (a := e)]

/-- What an instruction's commit can be (41_step.md R95): a move of `pc`; one cell and a move; an input taken into
one cell; an output; a new relative base; or a halt. -/
def CommitOf (i : Instr) (s t : State) : Prop :=
  match i with
  | .add a b dst => ∃ x y d, ReadsAs s a x ∧ ReadsAs s b y ∧ WritesTo s dst d ∧ inW (x + y) ∧ Advances s 4 ∧
      t = (s.storeAt d (x + y)).continueAt (s.pc + 4)
  | .mul a b dst => ∃ x y d, ReadsAs s a x ∧ ReadsAs s b y ∧ WritesTo s dst d ∧ inW (x * y) ∧ Advances s 4 ∧
      t = (s.storeAt d (x * y)).continueAt (s.pc + 4)
  | .lt a b dst => ∃ x y d, ReadsAs s a x ∧ ReadsAs s b y ∧ WritesTo s dst d ∧ Advances s 4 ∧
      t = (s.storeAt d (boolCell (decide (x < y)))).continueAt (s.pc + 4)
  | .eq a b dst => ∃ x y d, ReadsAs s a x ∧ ReadsAs s b y ∧ WritesTo s dst d ∧ Advances s 4 ∧
      t = (s.storeAt d (boolCell (decide (x = y)))).continueAt (s.pc + 4)
  | .input dst _ _ => ∃ d v rest, WritesTo s dst d ∧ s.inq = v :: rest ∧ Advances s 2 ∧
      t = { (s.storeAt d v).continueAt (s.pc + 2) with inq := rest }
  | .output a _ _ => ∃ v, ReadsAs s a v ∧ Advances s 2 ∧
      t = { s with pc := s.pc + 2, lastOut := some v, status := some (.ready v) }
  | .jt a target _ => ∃ c v, ReadsAs s a c ∧ ReadsAs s target v ∧
      ((c ≠ 0 ∧ legalAddr v ∧ t = s.continueAt v.toNat) ∨ (c = 0 ∧ Advances s 3 ∧ t = s.continueAt (s.pc + 3)))
  | .jf a target _ => ∃ c v, ReadsAs s a c ∧ ReadsAs s target v ∧
      ((c = 0 ∧ legalAddr v ∧ t = s.continueAt v.toNat) ∨ (c ≠ 0 ∧ Advances s 3 ∧ t = s.continueAt (s.pc + 3)))
  | .arb a _ _ => ∃ v, ReadsAs s a v ∧ inW (s.rb + v) ∧ (Config.rbNegPolicy = .fault → 0 ≤ s.rb + v) ∧
      Advances s 2 ∧ t = { s.continueAt (s.pc + 2) with rb := s.rb + v }
  | .hlt _ _ _ => ∃ v, s.lastOut = some v ∧ t = { s with status := some (.halted v) }

/-- Everything `exec` can answer: the instruction's commit, or an error that commits nothing. -/
theorem exec_cases (i : Instr) (s : State) :
    (∃ t, exec i s = .next t ∧ CommitOf i s t) ∨ ∃ e, exec i s = .next (errorState e s) := by
  have key : ∀ (r : Except MachineError State) (P : State → Prop), (∀ t, r = .ok t → P t) →
      (∃ t, finish s r = .next t ∧ P t) ∨ ∃ e, finish s r = .next (errorState e s) := by
    intro r P h
    cases r with
    | ok t => exact .inl ⟨t, rfl, h t rfl⟩
    | error e => exact .inr ⟨e, rfl⟩
  cases i with
  | add a b dst =>
    refine key _ _ fun t h => ?_
    obtain ⟨x, y, d, r, hx, hy, hd, hr, hn, rfl⟩ := threeSlot_eq_ok.mp h
    obtain ⟨hw, rfl⟩ := narrow_eq_ok.mp hr
    exact ⟨x, y, d, hx, hy, hd, hw, hn, rfl⟩
  | mul a b dst =>
    refine key _ _ fun t h => ?_
    obtain ⟨x, y, d, r, hx, hy, hd, hr, hn, rfl⟩ := threeSlot_eq_ok.mp h
    obtain ⟨hw, rfl⟩ := narrow_eq_ok.mp hr
    exact ⟨x, y, d, hx, hy, hd, hw, hn, rfl⟩
  | lt a b dst =>
    refine key _ _ fun t h => ?_
    obtain ⟨x, y, d, r, hx, hy, hd, hr, hn, rfl⟩ := threeSlot_eq_ok.mp h
    exact ⟨x, y, d, hx, hy, hd, hn, by rw [Except.ok.inj hr]⟩
  | eq a b dst =>
    refine key _ _ fun t h => ?_
    obtain ⟨x, y, d, r, hx, hy, hd, hr, hn, rfl⟩ := threeSlot_eq_ok.mp h
    exact ⟨x, y, d, hx, hy, hd, hn, by rw [Except.ok.inj hr]⟩
  | input dst m2 m3 => exact key _ _ fun t h => inputBody_eq_ok.mp h
  | output a m2 m3 => exact key _ _ fun t h => outputBody_eq_ok.mp h
  | jt a target m3 => exact key _ _ fun t h => by simpa [CommitOf] using jumpWhen_eq_ok.mp h
  | jf a target m3 => exact key _ _ fun t h => by simpa [CommitOf] using jumpWhen_eq_ok.mp h
  | arb a m2 m3 => exact key _ _ fun t h => arbBody_eq_ok.mp h
  | hlt m1 m2 m3 => exact key _ _ fun t h => haltBody_eq_ok.mp h

/-- Every cell after a write, fetched or read, in the statements' terms. -/
theorem read_write_eq_cellAfterWrite (s : State) (d : Nat) (v : Int) (a : Nat) :
    (s.mem.write d v).read a = cellAfterWrite s d v a := by
  simp only [read_write, cellAfterWrite, eq_comm]

/-- Everything a next state of `exec` can be. -/
theorem exec_next {i : Instr} {s t : State} (h : exec i s = .next t) :
    CommitOf i s t ∨ ∃ e, t = errorState e s := by
  rcases exec_cases i s with ⟨t', h', hc⟩ | ⟨e, h'⟩
  · rw [h'] at h; cases h; exact .inl hc
  · rw [h'] at h; cases h; exact .inr ⟨e, rfl⟩

/-- Everything `step` can answer: a refusal on a faulted instance, a decoder's error, or what `exec` answers. -/
theorem step_cases (s : State) :
    (s.fault.isSome ∧ step s = .refused .faulted) ∨
    (s.fault = none ∧ ∃ e, fetchDecode s = .error e ∧ step s = .next (errorState e s)) ∨
    (s.fault = none ∧ ∃ i, fetchDecode s = .ok i ∧ step s = exec i s) := by
  unfold step
  cases hf : s.fault with
  | some r => exact .inl ⟨rfl, rfl⟩
  | none =>
    refine .inr ?_
    cases hd : fetchDecode s with
    | error e => exact .inl ⟨rfl, e, rfl, rfl⟩
    | ok i => exact .inr ⟨rfl, i, rfl, rfl⟩

/-- Everything a next state of `step` can be. -/
theorem step_next {s t : State} (h : step s = .next t) :
    s.fault = none ∧ ((∃ i, fetchDecode s = .ok i ∧ CommitOf i s t) ∨ ∃ e, t = errorState e s) := by
  rcases step_cases s with ⟨-, h'⟩ | ⟨hf, e, -, h'⟩ | ⟨hf, i, hd, h'⟩
  · rw [h'] at h; cases h
  · rw [h'] at h; cases h; exact ⟨hf, .inr ⟨e, rfl⟩⟩
  · rw [h'] at h; exact ⟨hf, (exec_next h).imp_left fun hc => ⟨i, hd, hc⟩⟩

end Sys2Proof.Machine
end

