-- ==== Sys2Proof/Laws/PerInstr.lean ====
section
/-! SUPPORT. One family of statements over all instructions as syntax: the encoder writes an instruction's width of
cells (spec/30_encoding.md R60, R70, R74). -/

namespace Sys2Proof.Laws.EncodedWidth

/-- The encoding of `i` has `i.width` cells. -/
def Statement (i : Instr) : Prop := (encode i).length = i.width

theorem add (a b dst : Param) : Statement (.add a b dst) := rfl
theorem mul (a b dst : Param) : Statement (.mul a b dst) := rfl
theorem input (dst : Param) (m2 m3 : Mode) : Statement (.input dst m2 m3) := rfl
theorem output (a : Param) (m2 m3 : Mode) : Statement (.output a m2 m3) := rfl
theorem jt (a target : Param) (m3 : Mode) : Statement (.jt a target m3) := rfl
theorem jf (a target : Param) (m3 : Mode) : Statement (.jf a target m3) := rfl
theorem lt (a b dst : Param) : Statement (.lt a b dst) := rfl
theorem eq (a b dst : Param) : Statement (.eq a b dst) := rfl
theorem arb (a : Param) (m2 m3 : Mode) : Statement (.arb a m2 m3) := rfl
theorem hlt (m1 m2 m3 : Mode) : Statement (.hlt m1 m2 m3) := rfl

end Sys2Proof.Laws.EncodedWidth
end

