-- ==== Sys2Proof/Tests/Slice0.lean ====
section
/-! SUPPORT. Tests of single steps, with expected results taken from spec/95_test_vectors.md or worked out by hand from
the rule named, and for every statement with hypotheses a concrete state that meets them. -/

namespace Sys2Proof.Tests

open Sys2Proof.Machine

/-- A fresh instance of a program with the registers set. -/
def start (program : List Int) (rb : Int := 0) (inq : List Int := []) (lastOut : Option Int := none) : State :=
  { constructState program with rb := rb, inq := inq, lastOut := lastOut }

/-- A state at the top of the address space, its memory all allocated (95_test_vectors.md NPC-1, NPC-2). -/
def atTop (pc : Nat) (cells : List (Nat × Int)) (inq : List Int := []) (lastOut : Option Int := none) : State :=
  { State.reset with mem := ⟨9223372036854775808, cells⟩, pc := pc, inq := inq, lastOut := lastOut }

/-- What a step leaves: `pc`, `rb`, the queue, `lastOut`, the status. -/
def regsOf (o : Outcome) : Option (Nat × Int × List Int × Option Int × Option Status) :=
  (nextOf o).map fun t => (t.pc, t.rb, t.inq, t.lastOut, t.status)

/-- What a step leaves in one cell, with the memory length. -/
def cellAfter (o : Outcome) (a : Nat) : Option (Int × Nat) := (nextOf o).map fun t => (t.mem.read a, t.mem.len)

/-- The error a step reports, with the `pc` its record names. -/
def errorAfter (o : Outcome) : Option (ErrorKind × Nat × Nat × ErrorInfo) :=
  (nextOf o).bind fun t => t.fault.map fun r => (r.kind, r.code, r.pc, r.info)

/-! ### Well-formedness: the one check, a raw operand that does not fit a cell, in each slot of each shape -/

theorem test_illformed_slot1 : ¬ (Instr.add (.immediate 9223372036854775808) (.position 0) (.position 0)).WellFormed := by
  decide
theorem test_illformed_slot2 : ¬ (Instr.jt (.position 0) (.relative (-9223372036854775809)) .position).WellFormed := by
  decide
theorem test_illformed_slot3 : ¬ (Instr.lt (.position 0) (.position 0) (.position 9223372036854775808)).WellFormed := by
  decide
theorem test_illformed_single : ¬ (Instr.arb (.immediate 9223372036854775808) .position .position).WellFormed := by decide
/-- An immediate write target is a legal encoding (30_encoding.md R71). -/
theorem test_immediate_target_is_wellformed : (Instr.add (.immediate 1) (.immediate 1) (.immediate 0)).WellFormed := by
  decide

/-! ### Decoding: a word per constructor, `C B A O O` written out (30_encoding.md R69, R70) -/

theorem test_decode_add : decodeCells [2101, 7, 8, 9] = .ok (.add (.immediate 7) (.relative 8) (.position 9)) := by decide
theorem test_decode_mul : decodeCells [1002, 4, 3, 4] = .ok (.mul (.position 4) (.immediate 3) (.position 4)) := by decide
theorem test_decode_in : decodeCells [10203, 5] = .ok (.input (.relative 5) .position .immediate) := by decide
theorem test_decode_out : decodeCells [21004, 5] = .ok (.output (.position 5) .immediate .relative) := by decide
theorem test_decode_jt : decodeCells [11105, 1, 6] = .ok (.jt (.immediate 1) (.immediate 6) .immediate) := by decide
theorem test_decode_jf : decodeCells [1006, 101, 0] = .ok (.jf (.position 101) (.immediate 0) .position) := by decide
theorem test_decode_lt : decodeCells [21107, 1, 2, 3] = .ok (.lt (.immediate 1) (.immediate 2) (.relative 3)) := by decide
theorem test_decode_eq : decodeCells [1008, 100, 16, 101] = .ok (.eq (.position 100) (.immediate 16) (.position 101)) := by
  decide
theorem test_decode_arb : decodeCells [209, 0] = .ok (.arb (.relative 0) .position .position) := by decide
theorem test_decode_hlt : decodeCells [20199] = .ok (.hlt .immediate .position .relative) := by decide
/-- Vector DEC-6: digit 5 is ignored. -/
theorem test_decode_high_digits : decodeCells [100001, 1, 2, 3] = .ok (.add (.position 1) (.position 2) (.position 3)) := by
  decide
/-- Vectors PAR-1, PAR-4, PAR-5, PAR-6, PAR-7, PAR-8. -/
theorem test_decode_rejects :
    decodeCells [30099] = .error (.unknownMode .three 3) ∧ decodeCells [398] = .error (.unknownMode .one 3) ∧
    decodeCells [98] = .error (.unknownOpcode 98) ∧ decodeCells [-201] = .error (.unknownMode .one (-2)) ∧
    decodeCells [-1] = .error (.unknownOpcode (-1)) ∧ decodeCells [] = .error (.unknownOpcode 0) := by decide
/-- Vectors DEC-7, DEC-11. -/
theorem test_split : splitWord 123456 = ⟨56, 4, 3, 2⟩ ∧ splitWord (-99999) = ⟨-99, -9, -9, -9⟩ := by decide
/-- Two cells laid out in bits: word 104 and the operand -5 in two's complement. -/
theorem test_table_word : decodeTableWord 128 (104 + 2 ^ 64 * (2 ^ 64 - 5)) =
    some (.output (.immediate (-5)) .position .position) ∧ decodeTableWord 8 98 = none := by decide
/-- The word placed where the reset state fetches is what runs: `jt [0], [0]` with `mem[0] = 5` jumps to 5. -/
theorem test_fetch_word : (nextOf (step (State.reset.withFetchWord 64 5))).map State.pc = some 5 := by decide

/-! ### Memory (20_memory.md) -/

/-- Vector MEM-1's write: growth from 4 to 11 cells, zero between. -/
theorem test_write_grows : ((Memory.ofImage [1101, 2, 3, 10]).write 10 5).toSequence = [1101, 2, 3, 10, 0, 0, 0, 0, 0, 0, 5] := by
  decide
/-- Writing the value an unlisted cell reads as removes the entry, so equal memories are equal data. -/
theorem test_write_zero_is_canonical : (Memory.ofImage [7, 8]).write 0 0 = ⟨2, [(1, 8)]⟩ := by decide

/-! ### One step per instruction, two at most (95_test_vectors.md, vector in the name) -/

theorem test_add_alias_ADD6 : cellAfter (step (start [1, 0, 0, 0])) 0 = some (2, 4) := by decide
theorem test_add_overflow_ADD3 : errorAfter (step (start [1101, -9223372036854775808, -1, 0])) =
    some (.arithmeticOverflow, 7, 0, .arithmetic 1 (-9223372036854775809)) := by decide
theorem test_mul_sign_MUL5 : cellAfter (step (start [1102, -3, -4, 0])) 0 = some (12, 4) := by decide
theorem test_mul_overflow_MUL2 : errorAfter (step (start [1102, -9223372036854775808, -1, 0])) =
    some (.arithmeticOverflow, 7, 0, .arithmetic 2 9223372036854775808) := by decide
theorem test_in_relative_IN4 : cellAfter (step (start [203, 5] (rb := 10) (inq := [-9]))) 15 = some (-9, 16) := by decide
theorem test_in_target_before_queue_IN7 : errorAfter (step (start [103, 0])) =
    some (.invalidWriteMode, 3, 0, .writeSlot .one) := by decide
theorem test_out_OUT1 : regsOf (step (start [104, -5, 99])) = some (2, 0, [], some (-5), some (.ready (-5))) := by decide
theorem test_out_exact_address_RES8 :
    errorAfter (step (start [204, 4611686018427387904] (rb := 4611686018427387904))) =
      some (.addressOverflow, 5, 0, .address (.slot .one) 9223372036854775808) := by decide
theorem test_jt_negative_is_true_JT3 : regsOf (step (start [1105, -1, 9])) = some (9, 0, [], none, none) := by decide
theorem test_jt_target_resolved_when_not_taken_JT4 : errorAfter (step (start [105, 0, -1])) =
    some (.addressOverflow, 5, 0, .address (.slot .two) (-1)) := by decide
theorem test_jf_position_JF5 : regsOf (step (start [6, 3, 4, 0, 2])) = some (2, 0, [], none, none) := by decide
theorem test_jf_target_checked_JF4 : errorAfter (step (start [1106, 0, -5])) =
    some (.addressOverflow, 5, 0, .address .target (-5)) := by decide
theorem test_lt_signed_LT3 : cellAfter (step (start [1107, -9223372036854775808, 9223372036854775807, 0])) 0 =
    some (1, 4) := by decide
theorem test_lt_equal_LT2 : cellAfter (step (start [1107, 3, 3, 0])) 0 = some (0, 4) := by decide
theorem test_eq_EQ4 : cellAfter (step (start [1108, 0, 0, 4])) 4 = some (1, 5) := by decide
theorem test_eq_EQ2 : cellAfter (step (start [1108, 7, -7, 0])) 0 = some (0, 4) := by decide
theorem test_arb_uses_old_base_ARB6 : regsOf (step (start [209, -1] (rb := 1))) = some (2, 210, [], none, none) := by decide
/-- Vectors ARB-2a and ARB-2b: both values of the policy. -/
theorem test_arb_policy_ARB2 :
    regsOf (finish (start [109, -5] (rb := 2)) (arbBody .allow (.immediate (-5)) (start [109, -5] (rb := 2)))) =
      some (2, -3, [], none, none) ∧
    errorAfter (finish (start [109, -5] (rb := 2)) (arbBody .fault (.immediate (-5)) (start [109, -5] (rb := 2)))) =
      some (.addressOverflow, 5, 0, .address .rb (-3)) := ⟨by decide, by decide⟩
theorem test_hlt_HALT1 : regsOf (step (start [99] (lastOut := some 3))) = some (0, 0, [], some 3, some (.halted 3)) := by
  decide
theorem test_hlt_HALT4 : errorAfter (step (start [99])) = some (.noOutputProduced, 6, 0, .nothing) := by decide
/-- Vectors NPC-1, NPC-2. -/
theorem test_pc_limit_NPC :
    errorAfter (step (atTop 9223372036854775806 [(9223372036854775806, 104), (9223372036854775807, 7)])) =
      some (.addressOverflow, 5, 9223372036854775806, .address .pcAdvance 9223372036854775808) ∧
    regsOf (step (atTop 9223372036854775807 [(9223372036854775807, 99)] (lastOut := some 1))) =
      some (9223372036854775807, 0, [], some 1, some (.halted 1)) := ⟨by decide, by decide⟩
/-- Vector HOST-3: after an error `add_input` is accepted and the next step is refused. -/
theorem test_faulted_HOST3 :
    ((nextOf (step (start [3, 0, 99]))).bind fun t => (nextOf (addInput 1 t)).map fun u => (u.inq, stepCall 5 u)) =
      some ([1], .refused .faulted) := by decide

/-! ### Witnesses: for every statement with hypotheses, a state and operands that meet them, for each of its clauses -/

/-- The instance that has faulted with `InputExhausted` (vector HOST-3). -/
def faultedStart : State := faultedState (start [3, 0, 99]) .inputExhausted 4 .nothing

/-- `add #2, #3, [5]` and its neighbours: operands 2 and 3, destination 5. -/
def addStart : State := start [1101, 2, 3, 5]

/-- The status a step leaves. -/
def statusAfter (o : Outcome) : Option Status := (nextOf o).bind State.status

theorem witness_SplitterReadsDecimalDigits :
    (0 : Int) ≤ 99 ∧ (99 : Int) < 100 ∧ (0 : Int) ≤ 9 ∧ (9 : Int) < 10 ∧ splitWord 1399999 = ⟨99, 9, 9, 9⟩ := by decide
theorem witness_SplitReencodesTheLowFiveDigits : (0 : Int) ≤ 123456 ∧ (123456 : Int).tmod 100000 = 23456 := by decide
theorem witness_NegativeWordsNeverDecode :
    (splitWord (-201)).mode1 ≠ 0 ∧ (splitWord (-2001)).mode1 = 0 ∧ (splitWord (-2001)).mode2 ≠ 0 ∧
    (splitWord (-20001)).mode2 = 0 ∧ (splitWord (-20001)).mode3 ≠ 0 ∧ (splitWord (-1)).mode3 = 0 := by decide
theorem witness_DecoderChecksModesThenOpcode :
    (splitWord 398).mode1 ∉ legalDigits ∧
    ((splitWord 3298).mode1 ∈ legalDigits ∧ (splitWord 3298).mode2 ∉ legalDigits) ∧
    ((splitWord 32298).mode1 ∈ legalDigits ∧ (splitWord 32298).mode2 ∈ legalDigits ∧
      (splitWord 32298).mode3 ∉ legalDigits) ∧
    ((splitWord 22298).mode1 ∈ legalDigits ∧ (splitWord 22298).mode2 ∈ legalDigits ∧
      (splitWord 22298).mode3 ∈ legalDigits ∧ (splitWord 22298).opcode ∉ opcodeTable) ∧
    ((splitWord 22299).mode3 ∈ legalDigits ∧ (splitWord 22299).opcode ∈ opcodeTable) := by decide
theorem witness_EncodeAfterDecodeGivesTheWordBack : decode 123201 1 2 3 = .ok (.add (.relative 1) (.position 2) (.relative 3)) ∨
    decode 122201 1 2 3 = .ok (.add (.relative 1) (.relative 2) (.relative 3)) := .inr (by decide)
theorem witness_EncodingFitsItsCells :
    (Instr.add (.immediate 9223372036854775807) (.immediate (-9223372036854775808)) (.position 0)).WellFormed := by decide
theorem witness_MemoryNeverShrinks : (Memory.ofImage [7]).len ≤ 1 ∧ (nextOf (step addStart)).isSome ∧
    (nextOf (addInput 3 addStart)).isSome := by decide
theorem witness_MemoryLengthIsUnobservable :
    SameButLength addStart { addStart with mem := ⟨9, addStart.mem.cells⟩ } ∧ (nextOf (step addStart)).isSome := by
  refine ⟨⟨fun a => ?_, rfl, rfl, rfl, rfl, rfl, rfl⟩, by decide⟩
  by_cases h : a < 4
  · have h' : a < 9 := by omega
    simp [Memory.read, addStart, start, constructState, Memory.ofImage, h, h']
  · have h' : a ≠ 0 ∧ a ≠ 1 ∧ a ≠ 2 ∧ a ≠ 3 := by omega
    simp [Memory.read, addStart, start, constructState, Memory.ofImage, imageCells, lookupCell, h, h'.1.symm,
      h'.2.1.symm, h'.2.2.1.symm, h'.2.2.2.symm]
theorem witness_MemoryLengthIsUnobservable_refused :
    SameButLength faultedStart faultedStart ∧ step faultedStart = .refused .faulted :=
  ⟨⟨fun _ => rfl, rfl, rfl, rfl, rfl, rfl, rfl⟩, rfl⟩
/-- Destinations at the ends of the next instruction's four cells: its word and its third operand, and for `in` its
first operand. -/
theorem witness_NextFetchSeesTheWrite :
    (ReadsAs (start [1101, 98, 1, 4]) (.immediate 98) 98 ∧ ReadsAs (start [1101, 98, 1, 4]) (.immediate 1) 1 ∧
      WritesTo (start [1101, 98, 1, 4]) (.position 4) 4 ∧ WritesTo (start [1101, 98, 1, 4]) (.relative 7) 7 ∧
      inW ((98 : Int) + 1) ∧ inW ((98 : Int) * 1) ∧ Advances (start [1101, 98, 1, 4]) 4) ∧
    (WritesTo (start [3, 3] (inq := [7])) (.position 3) 3 ∧ (start [3, 3] (inq := [7])).inq = 7 :: [] ∧
      Advances (start [3, 3] (inq := [7])) 2) := by decide
/-- What the fetch sees, worked out from 20_memory.md R54: the stored 99 is the next word, the input 7 its operand. -/
theorem test_next_fetch_R54 :
    (nextOf (step (start [1101, 98, 1, 4]))).map fetchDecode = some (.ok (.hlt .position .position .position)) ∧
    (nextOf (step (start [3, 3, 104] (inq := [7])))).map fetchDecode =
      some (.ok (.output (.immediate 7) .position .position)) := ⟨by decide, by decide⟩
theorem witness_ConstructionCopiesTheProgram : (∀ v ∈ [(9223372036854775807 : Int), 0, -9223372036854775808], inW v) ∧
    [(9223372036854775807 : Int), 0, -9223372036854775808].length ≤ 9223372036854775808 := by decide
theorem witness_StepRunsTheDecodedInstruction : addStart.fault = none ∧
    decode (addStart.mem.read 0) (addStart.mem.read 1) (addStart.mem.read 2) (addStart.mem.read 3) =
      .ok (.add (.immediate 2) (.immediate 3) (.position 5)) := by decide
theorem witness_EveryStepHasANextState : addStart.fault = none ∧ State.reset.fault = none := by decide
theorem witness_StepRaisesUnknownMode :
    (splitWord ((start [398]).mem.read 0)).mode1 ∉ legalDigits ∧
    ((splitWord ((start [3201]).mem.read 0)).mode1 ∈ legalDigits ∧
      (splitWord ((start [3201]).mem.read 0)).mode2 ∉ legalDigits) ∧
    ((splitWord ((start [30099]).mem.read 0)).mode1 ∈ legalDigits ∧
      (splitWord ((start [30099]).mem.read 0)).mode2 ∈ legalDigits ∧
      (splitWord ((start [30099]).mem.read 0)).mode3 ∉ legalDigits) ∧ (start [30099]).fault = none := by decide
theorem witness_StepRaisesUnknownOpcode : (start [98]).fault = none ∧
    (splitWord ((start [98]).mem.read 0)).mode1 ∈ legalDigits ∧
    (splitWord ((start [98]).mem.read 0)).mode2 ∈ legalDigits ∧
    (splitWord ((start [98]).mem.read 0)).mode3 ∈ legalDigits ∧
    (splitWord ((start [98]).mem.read 0)).opcode ∉ opcodeTable := by decide
theorem witness_FaultedInstanceIsRefused :
    faultedStart.fault = some ⟨.inputExhausted, 4, 0, .nothing⟩ ∧ inW 9223372036854775807 := by decide
theorem witness_ErrorsCommitNothing :
    ((nextOf (step (start [3, 0, 99]))).map State.ranWell) = some false := by decide
theorem witness_StepKeepsTheInvariant : addStart.Inv ∧ (nextOf (step addStart)).isSome :=
  ⟨⟨by decide, by decide, by decide, by decide, by decide, (fun v hv => nomatch hv), (fun v hv => nomatch hv), trivial⟩,
    by decide⟩
theorem witness_HostOperationsKeepTheInvariant : (nextOf (construct [1101, 2, 3, 5])).isSome ∧ addStart.Inv ∧
    (nextOf (addInput (-9223372036854775808) addStart)).isSome :=
  ⟨by decide, witness_StepKeepsTheInvariant.1, by decide⟩
/-- One error of every kind an instruction raises, from the instructions that raise it. -/
theorem witness_ErrorKindsAreRaisedByTheirOpcodes :
    statusAfter (exec (.eq (.immediate 1) (.immediate 1) (.immediate 0)) addStart) =
      some (.error .invalidWriteMode 3 (.writeSlot .three)) ∧
    statusAfter (exec (.input (.immediate 0) .position .position) addStart) =
      some (.error .invalidWriteMode 3 (.writeSlot .one)) ∧
    statusAfter (exec (.input (.position 0) .position .position) addStart) =
      some (.error .inputExhausted 4 .nothing) ∧
    statusAfter (exec (.jt (.immediate 1) (.immediate (-1)) .position) addStart) =
      some (.error .addressOverflow 5 (.address .target (-1))) ∧
    statusAfter (exec (.hlt .position .position .position) addStart) = some (.error .noOutputProduced 6 .nothing) ∧
    statusAfter (exec (.add (.immediate 9223372036854775807) (.immediate 1) (.position 0)) addStart) =
      some (.error .arithmeticOverflow 7 (.arithmetic 1 9223372036854775808)) ∧
    statusAfter (exec (.mul (.immediate 4611686018427387904) (.immediate 2) (.position 0)) addStart) =
      some (.error .arithmeticOverflow 7 (.arithmetic 2 9223372036854775808)) ∧
    statusAfter (exec (.arb (.immediate 1) .position .position) (start [] (rb := 9223372036854775807))) =
      some (.error .arithmeticOverflow 7 (.arithmetic 9 9223372036854775808)) :=
  ⟨by decide, by decide, by decide, by decide, by decide, by decide, by decide, by decide⟩
/-- `exec` has a next state that ran well, and one that did not (also for OnlyTheirInstructionWritesARegister and the
frames of the storing instructions). -/
theorem witness_PcMovesByWidthTargetOrNotAtAll :
    (nextOf (exec (.add (.immediate 2) (.immediate 3) (.position 5)) addStart)).map State.ranWell = some true ∧
    (nextOf (exec (.add (.position (-1)) (.immediate 3) (.position 5)) addStart)).map State.ranWell = some false := by
  decide
theorem witness_AddCompletes : ReadsAs addStart (.position 1) 2 ∧ ReadsAs addStart (.relative 2) 3 ∧
    WritesTo addStart (.position 9223372036854775807) 9223372036854775807 ∧ inW ((2 : Int) + 3) ∧
    Advances addStart 4 := by decide
/-- Also for the operand hypotheses of LessThanRule and EqualsRule. -/
theorem witness_MulCompletes : ReadsAs addStart (.position 1) 2 ∧ ReadsAs addStart (.immediate (-4)) (-4) ∧
    WritesTo addStart (.relative 5) 5 ∧ inW ((2 : Int) * -4) ∧ Advances addStart 4 := by decide
/-- The clauses of OperandErrors, shared by `add`, `mul`, `lt` and `eq`. -/
theorem witness_OperandErrors : BadAddress addStart (.position (-1)) (-1) ∧
    BadAddress (start [] (rb := 9223372036854775807)) (.relative 1) 9223372036854775808 ∧
    ReadsAs addStart (.position 9223372036854775807) 0 ∧ (Param.immediate 0).mode = .immediate := by decide
theorem witness_AddAndMulErrorsInOrder :
    (ReadsAs addStart (.immediate 9223372036854775807) 9223372036854775807 ∧ ReadsAs addStart (.immediate 1) 1 ∧
      WritesTo addStart (.position 0) 0 ∧ ¬ inW ((9223372036854775807 : Int) + 1)) ∧
    ¬ inW ((-9223372036854775808 : Int) * -1) ∧
    ReadsAs (atTop 9223372036854775804 []) (.immediate 1) 1 ∧ WritesTo (atTop 9223372036854775804 []) (.position 0) 0 ∧
    inW ((1 : Int) + 1) ∧ inW ((1 : Int) * 1) ∧ ¬ Advances (atTop 9223372036854775804 []) 4 := by decide
theorem witness_InputCompletes : WritesTo (start [] (inq := [7, 8])) (.position 0) 0 ∧
    (start [] (inq := [7, 8])).inq = 7 :: [8] ∧ Advances (start [] (inq := [7, 8])) 2 := by decide
theorem witness_InputErrorsInOrder : (Param.immediate 0).mode = .immediate ∧
    BadAddress addStart (.relative (-1)) (-1) ∧ (WritesTo addStart (.position 0) 0 ∧ addStart.inq = []) ∧
    WritesTo (atTop 9223372036854775806 [] [7]) (.position 0) 0 ∧ (atTop 9223372036854775806 [] [7]).inq ≠ [] ∧
    ¬ Advances (atTop 9223372036854775806 [] [7]) 2 := by decide
theorem witness_OutputRule : (ReadsAs addStart (.position 0) 1101 ∧ Advances addStart 2) ∧
    BadAddress addStart (.position (-1)) (-1) ∧
    ReadsAs (atTop 9223372036854775806 []) (.immediate 7) 7 ∧ ¬ Advances (atTop 9223372036854775806 []) 2 := by decide
theorem witness_JumpCompletes : ReadsAs addStart (.immediate (-1)) (-1) ∧ ReadsAs addStart (.immediate 0) 0 ∧
    ReadsAs addStart (.immediate 9223372036854775807) 9223372036854775807 ∧ (-1 : Int) ≠ 0 ∧
    legalAddr 9223372036854775807 ∧ Advances addStart 3 := by decide
theorem witness_JumpErrorsInOrder : BadAddress addStart (.position (-1)) (-1) ∧
    (ReadsAs addStart (.immediate 1) 1 ∧ ReadsAs addStart (.immediate (-1)) (-1) ∧ ¬ legalAddr (-1)) ∧
    ReadsAs addStart (.immediate 0) 0 ∧ ReadsAs (atTop 9223372036854775805 []) (.immediate 0) 0 ∧
    ReadsAs (atTop 9223372036854775805 []) (.immediate 1) 1 ∧ ¬ Advances (atTop 9223372036854775805 []) 3 := by decide
theorem witness_AdjustRelativeBaseCompletes : ReadsAs addStart (.immediate 0) 0 ∧ inW (addStart.rb + 0) ∧
    0 ≤ addStart.rb + 0 ∧ ReadsAs addStart (.immediate (-1)) (-1) ∧ inW (addStart.rb + -1) ∧
    addStart.rb + -1 < 0 ∧ Advances addStart 2 := by decide
theorem witness_AdjustRelativeBaseErrorsInOrder : BadAddress addStart (.position (-1)) (-1) ∧
    (ReadsAs (start [] (rb := 9223372036854775807)) (.immediate 1) 1 ∧
      ¬ inW ((start [] (rb := 9223372036854775807)).rb + 1)) ∧
    -- The other alternative of the last clause, `Config.rbNegPolicy = .allow`, is open: nothing decides it.
    ReadsAs (atTop 9223372036854775806 []) (.immediate 0) 0 ∧ inW ((atTop 9223372036854775806 []).rb + 0) ∧
    0 ≤ (atTop 9223372036854775806 []).rb + 0 ∧ ¬ Advances (atTop 9223372036854775806 []) 2 := by decide
/-- The same premises serve NegativeRelativeBaseFollowsThePolicy, at the lowest representable base. -/
theorem witness_NegativeRelativeBaseFollowsThePolicy : ReadsAs addStart (.immediate (-9223372036854775808)) (-9223372036854775808) ∧
    inW (addStart.rb + -9223372036854775808) ∧ addStart.rb + -9223372036854775808 < 0 ∧ Advances addStart 2 ∧
    ReadsAs (atTop 9223372036854775806 []) (.immediate (-1)) (-1) ∧
    inW ((atTop 9223372036854775806 []).rb + -1) ∧ (atTop 9223372036854775806 []).rb + -1 < 0 ∧
    ¬ Advances (atTop 9223372036854775806 []) 2 := by decide
theorem witness_HaltCompletes : (start [99] (lastOut := some 3)).lastOut = some 3 ∧ (start [99]).lastOut = none := by decide
theorem witness_HaltRepeats : statusAfter (step (start [99] (lastOut := some 3))) = some (.halted 3) := by decide
theorem witness_ThreeSlotFrame :
    (nextOf (exec (.lt (.immediate 2) (.immediate 3) (.position 5)) addStart)).map State.ranWell = some true ∧
    writeTarget addStart .three (.position 5) = .ok 5 ∧ writeTarget addStart .three (.position 5) ≠ .ok 4 ∧
    (nextOf (exec (.eq (.immediate 2) (.immediate 3) (.immediate 5)) addStart)).map State.ranWell = some false := by decide
theorem witness_InputFrame :
    (nextOf (exec (.input (.position 0) .position .position) (start [3, 0] (inq := [7])))).map State.ranWell = some true ∧
    (nextOf (exec (.input (.position 0) .position .position) (start [3, 0]))).map State.ranWell = some false := by decide
theorem witness_NonStoringFrame :
    (nextOf (exec (.jf (.immediate 0) (.immediate 0) .position) addStart)).map State.ranWell = some true ∧
    (nextOf (exec (.output (.position (-1)) .position .position) addStart)).map State.ranWell = some false := by decide
theorem witness_StepCallFollowsTheLoop : faultedStart.fault ≠ none ∧ (nextOf (step addStart)).map State.status = some none ∧
    statusAfter (step (start [104, 7])) = some (.ready 7) := by decide
/-- For the statements whose hypothesis is that a step call returned: each kind of status. -/
theorem witness_StepCallReturns :
    (∃ t, stepCall 1 (start [104, 7]) = .returned t (.ready 7)) ∧
    (∃ t, stepCall 1 (start [99] (lastOut := some 3)) = .returned t (.halted 3)) ∧
    (∃ t, stepCall 2 (start [3, 5, 3, 6] (inq := [1])) = .returned t (.error .inputExhausted 4 .nothing)) :=
  ⟨⟨_, rfl⟩, ⟨_, rfl⟩, ⟨_, rfl⟩⟩
/-- A call that has returned and one that has not, both after an `in` that stored the value it took. -/
theorem witness_StepCallTakesInputsInOrder :
    (∃ t, stepCall 2 (start [3, 5, 104, 7] (inq := [1, 2])) = .returned t (.ready 7)) ∧
    (∃ t, stepCall 1 (start [3, 5, 104, 7] (inq := [1, 2])) = .noResult t) ∧
    inputsStored 2 (start [3, 5, 104, 7] (inq := [1, 2])) = [1] := ⟨⟨_, rfl⟩, ⟨_, rfl⟩, by decide⟩
/-- The example of 47_halt.md R160, `104, 42, 99`, and an image that the host must not give (R188). -/
theorem test_run_single :
    (match runSingle 1 2 [104, 42, 99] [] with | .ended r st => some (r.outputs, st) | _ => none) =
      some ([42], .halted 42) ∧
    runSingle 1 2 [104, 9223372036854775808, 99] [] = .notConstructed .valueOutOfRange := ⟨by decide, by decide⟩
theorem witness_AddInputAppendsAtTheBack : inW (-9223372036854775808) ∧ (start [] (inq := [1])).inq.length < 2 ∧
    1 ≤ (start [] (inq := [1])).inq.length := by decide
theorem witness_RingSetupQueuesPhasesAndSignal : (∀ v ∈ [(3 : Int), 5, 99], inW v) ∧
    [(3 : Int), 5, 99].length ≤ 9223372036854775808 ∧ (∀ v ∈ (9 : Int) :: [8], inW v) := by decide
/-- A ring of two: instance 0 is ready, or errors, or halts before the last; instance 1, the last, halts. -/
theorem witness_RingForwardsOrStops :
    (∃ t, stepCall 1 (start [104, 7]) = .returned t (.ready 7) ∧
      (⟨[start [104, 7], start [99]], 0, [none, none]⟩ : Ring).cpus[0]? = some (start [104, 7])) ∧
    (∃ t, stepCall 1 (start [99] (lastOut := some 3)) = .returned t (.halted 3) ∧
      (0 : Nat) + 1 ≠ [start [99] (lastOut := some 3), start [99] (lastOut := some 3)].length ∧
      (1 : Nat) + 1 = [start [99] (lastOut := some 3), start [99] (lastOut := some 3)].length) ∧
    (∃ t, stepCall 1 (start [99]) = .returned t (.error .noOutputProduced 6 .nothing) ∧
      (⟨[start [99], start [99]], 1, [none, none]⟩ : Ring).cpus[1]? = some (start [99])) ∧ inW 7 ∧ inW 3 :=
  ⟨⟨_, rfl, rfl⟩, ⟨_, rfl, by decide, rfl⟩, ⟨_, rfl, rfl⟩, by decide, by decide⟩

end Sys2Proof.Tests
end

section
/-! The memory as the spec's growable sequence (spec/20_memory.md R40 to R43): the sequence cell by cell, growing it,
and setting one of its cells. -/

namespace Sys2Proof.Machine

@[simp] theorem length_toSequence (m : Memory) : m.toSequence.length = m.len := by
  simp [Memory.toSequence]

/-- Cell by cell the sequence is what reads give (R42). -/
@[simp] theorem getElem_toSequence (m : Memory) (x : Nat) (h : x < m.toSequence.length) :
    m.toSequence[x] = m.read x := by
  have hx : x < m.len := by simpa using h
  simp [Memory.toSequence, Memory.read, hx]

/-- Growing appends zero cells (R43). -/
theorem toSequence_growTo (m : Memory) (n : Nat) :
    (m.growTo n).toSequence = m.toSequence ++ List.replicate (n - m.len) 0 := by
  refine List.ext_getElem (by simp; omega) fun x _ _ => ?_
  by_cases hx : x < m.len
  · simp [hx]
  · simp [List.getElem_append_right, Nat.not_lt.mp hx]

/-- A write below the length changes the one cell of the sequence (R43). -/
theorem toSequence_write_of_lt {m : Memory} {a : Nat} (h : a < m.len) (v : Int) :
    (m.write a v).toSequence = m.toSequence.set a v := by
  refine List.ext_getElem (by simp; omega) fun x _ _ => ?_
  simp [List.getElem_set, read_write, eq_comm]

theorem growTo_of_le {m : Memory} {n : Nat} (h : n ≤ m.len) : m.growTo n = m :=
  if_neg (Nat.not_lt.mpr h)

/-- A write is a write to the memory already grown up to its target (R43). -/
theorem write_growTo (m : Memory) (a : Nat) (v : Int) : (m.growTo (a + 1)).write a v = m.write a v := by
  have hgrown : (m.growTo (a + 1)).growTo (a + 1) = m.growTo (a + 1) := growTo_of_le (by simp)
  simp only [Memory.write, hgrown]

/-- A write first appends the missing zero cells and then sets its cell (R43). -/
theorem toSequence_write (m : Memory) (a : Nat) (v : Int) :
    (m.write a v).toSequence = (m.toSequence ++ List.replicate (a + 1 - m.len) 0).set a v := by
  rw [← write_growTo, toSequence_write_of_lt (by simp), toSequence_growTo]

/-- Settles O10: the write is split at the length, past which it grows the sequence first. -/
theorem memoryIsTheGrowableSequence : Obligations.MemoryIsTheGrowableSequence := by
  intro m a v
  refine ⟨length_toSequence m, ?_, ?_⟩
  · split
    · simp [List.getD_eq_getElem?_getD, ‹a < m.len›]
    · exact read_past_end (Nat.not_lt.mp ‹_›)
  · split
    · exact toSequence_write m a v
    · exact toSequence_write_of_lt (Nat.not_le.mp ‹_›) v

end Sys2Proof.Machine
end

section
/-! The memory length under the machine's operations (spec/20_memory.md R41). -/

namespace Sys2Proof.Machine

/-- Storing a cell does not shorten the memory (R43). -/
theorem len_le_storeAt (s : State) (d : Nat) (v : Int) : s.mem.len ≤ (s.storeAt d v).mem.len := by
  rw [storeAt_mem, len_write]
  exact le_max_left ..

/-- No instruction's commit shortens the memory: the storing ones write one cell, the others leave it. -/
theorem len_le_of_commitOf {i : Instr} {s t : State} (h : CommitOf i s t) : s.mem.len ≤ t.mem.len := by
  cases i with
  | add a b dst =>
    obtain ⟨x, y, d, -, -, -, -, -, rfl⟩ := h
    exact len_le_storeAt s d _
  | mul a b dst =>
    obtain ⟨x, y, d, -, -, -, -, -, rfl⟩ := h
    exact len_le_storeAt s d _
  | lt a b dst =>
    obtain ⟨x, y, d, -, -, -, -, rfl⟩ := h
    exact len_le_storeAt s d _
  | eq a b dst =>
    obtain ⟨x, y, d, -, -, -, -, rfl⟩ := h
    exact len_le_storeAt s d _
  | input dst m2 m3 =>
    obtain ⟨d, v, rest, -, -, -, rfl⟩ := h
    exact len_le_storeAt s d v
  | output a m2 m3 =>
    obtain ⟨v, -, -, rfl⟩ := h
    exact le_rfl
  | jt a target m3 =>
    obtain ⟨c, v, -, -, ⟨-, -, rfl⟩ | ⟨-, -, rfl⟩⟩ := h <;> exact le_rfl
  | jf a target m3 =>
    obtain ⟨c, v, -, -, ⟨-, -, rfl⟩ | ⟨-, -, rfl⟩⟩ := h <;> exact le_rfl
  | arb a m2 m3 =>
    obtain ⟨v, -, -, -, -, rfl⟩ := h
    exact le_rfl
  | hlt m1 m2 m3 =>
    obtain ⟨v, -, rfl⟩ := h
    exact le_rfl

/-- No step shortens the memory: a commit does not, and an error leaves it. -/
theorem len_le_of_step {s t : State} (h : step s = .next t) : s.mem.len ≤ t.mem.len := by
  obtain ⟨-, ⟨i, -, hcommit⟩ | ⟨e, rfl⟩⟩ := step_next h
  · exact len_le_of_commitOf hcommit
  · exact le_rfl

theorem mem_of_addInput {s t : State} {v : Int} (h : addInput v s = .next t) : t.mem = s.mem := by
  rw [(addInput_next h).2]

/-- Settles O11, each clause by the lemma about its operation. -/
theorem memoryNeverShrinks : Obligations.MemoryNeverShrinks :=
  ⟨fun _ => Iff.rfl, fun _ _ => read_past_end, fun _ _ => len_le_of_step, fun _ _ _ => mem_of_addInput,
    fun _ => rfl⟩

end Sys2Proof.Machine
end

section
/-! The splitter's fields as decimal digits (spec/30_encoding.md R61, R65). -/

namespace Sys2Proof

/-- A non-negative word's digits are those of floor division (00_scope.md R10, R11). -/
theorem decDigit_of_nonneg {w : Int} (hw : 0 ≤ w) (i : Nat) : decDigit w i = w / 10 ^ i % 10 := by
  rw [decDigit, Int.tdiv_eq_ediv_of_nonneg hw, Int.tmod_eq_emod_of_nonneg (by positivity)]

/-- One more low digit is kept by adding it at its place. -/
theorem tmod_pow_succ_of_nonneg {w : Int} (hw : 0 ≤ w) (i : Nat) :
    w.tmod (10 ^ (i + 1)) = w.tmod (10 ^ i) + 10 ^ i * decDigit w i := by
  rw [decDigit_of_nonneg hw, Int.tmod_eq_emod_of_nonneg hw, Int.tmod_eq_emod_of_nonneg hw]
  lift w to Nat using hw
  exact_mod_cast Nat.mod_pow_succ

/-- The opcode is the low two digits, and each mode digit in turn extends the remainder by one place (R65). -/
theorem splitWord_reencodes {w : Int} (hw : 0 ≤ w) :
    (splitWord w).opcode + 100 * (splitWord w).mode1 + 1000 * (splitWord w).mode2
      + 10000 * (splitWord w).mode3 = w.tmod 100000 := by
  have h1 : w.tmod 1000 = (splitWord w).opcode + 100 * (splitWord w).mode1 := tmod_pow_succ_of_nonneg hw 2
  have h2 : w.tmod 10000 = w.tmod 1000 + 1000 * (splitWord w).mode2 := tmod_pow_succ_of_nonneg hw 3
  have h3 : w.tmod 100000 = w.tmod 10000 + 10000 * (splitWord w).mode3 := tmod_pow_succ_of_nonneg hw 4
  rw [h3, h2, h1]

/-- Settles O2: the fields add up digit by digit, and the opcode is the splitter's remainder by definition. -/
theorem splitReencodesTheLowFiveDigits : Obligations.SplitReencodesTheLowFiveDigits :=
  ⟨fun _ => splitWord_reencodes, fun _ => rfl⟩

end Sys2Proof
end

section
/-! The write-address path in closed form (spec/40_addressing.md R81). -/

namespace Sys2Proof.Machine

/-- The address check as one conditional: the cell it accepts, or the exact address it refuses. -/
theorem checkAddr_eq_ite (a : Int) (use : AddrUse) :
    checkAddr a use =
      if 0 ≤ a ∧ a < Config.addrLimit then .ok a.toNat else .error (.addressOverflow use a) := by
  split
  · exact checkAddr_eq_ok.mpr ⟨‹_›, rfl⟩
  · exact checkAddr_eq_error.mpr ⟨‹_›, rfl⟩

/-- Settles O13: position and relative are the check of their exact address, and an immediate has none. -/
theorem writeTargetRule : Obligations.WriteTargetRule := fun s k x =>
  ⟨checkAddr_eq_ite x (.slot k), checkAddr_eq_ite (s.rb + x) (.slot k),
    writeTarget_eq_error.mpr (.inl ⟨rfl, rfl⟩)⟩

end Sys2Proof.Machine
end

section
/-! `out` (spec/43_io.md R121): what `exec` answers, from what the body of `out` comes to. -/

namespace Sys2Proof.Machine

theorem exec_output_of_ok {a : Param} {s t : State} (m2 m3 : Mode) (h : outputBody a s = .ok t) :
    exec (.output a m2 m3) s = .next t :=
  congrArg (finish s) h

/-- An error of the body is taken with the kind and the detail of its table row (60_exceptions.md R170, R171). -/
theorem exec_output_of_error {a : Param} {s : State} {e : MachineError} (m2 m3 : Mode)
    (h : outputBody a s = .error e) :
    exec (.output a m2 m3) s = raises (errorKind e) (errorInfo e) s :=
  congrArg (finish s) h

/-- The operand is resolved first, so its bad address is the error, whatever `pc` is. -/
theorem outputBody_of_badAddress {a : Param} {s : State} {v : Int} (h : BadAddress s a v) :
    outputBody a s = .error (.addressOverflow (.slot .one) v) :=
  outputBody_eq_error.mpr (.inl (resolve_eq_error.mpr ⟨v, h, rfl⟩))

theorem outputBody_of_not_advances {a : Param} {s : State} {v : Int} (hv : ReadsAs s a v)
    (hpc : ¬ Advances s 2) : outputBody a s = .error (.addressOverflow .pcAdvance (s.pc + 2)) :=
  outputBody_eq_error.mpr (.inr ⟨v, hv, nextPc_eq_error.mpr ⟨Nat.not_lt.mp hpc, rfl⟩⟩)

/-- Settles O39: the encoding is the encoder's own arm, and each other clause is one way the body of `out` ends. -/
theorem outputRule : Obligations.OutputRule := fun _ _ m2 m3 =>
  ⟨rfl,
    fun v hv hpc => exec_output_of_ok m2 m3 (outputBody_eq_ok.mpr ⟨v, hv, hpc, rfl⟩),
    fun _ hbad => exec_output_of_error m2 m3 (outputBody_of_badAddress hbad),
    fun _ hv hpc => exec_output_of_error m2 m3 (outputBody_of_not_advances hv hpc)⟩

end Sys2Proof.Machine
end

section
/-! The three-slot instructions (spec/42_arith.md R110, 45_compare.md R140): what `exec` answers for an instruction that
ends in the three-slot body with any result function `f`, whichever instruction it is. -/

namespace Sys2Proof.Machine

section
variable {i : Instr} {f : Int → Int → Except MachineError Int} {a b dst : Param} {s : State}
  (hexec : exec i s = finish s (threeSlot f a b dst s))
include hexec

theorem exec_threeSlot_of_ok {x y r : Int} {d : Nat} (hx : ReadsAs s a x) (hy : ReadsAs s b y)
    (hd : WritesTo s dst d) (hr : f x y = .ok r) (hpc : Advances s 4) :
    exec i s = .next { s with mem := s.mem.write d r, pc := s.pc + 4, status := none } :=
  hexec.trans (congrArg (finish s) (threeSlot_eq_ok.mpr ⟨x, y, d, r, hx, hy, hd, hr, hpc, rfl⟩))

/-- An error of the body is taken with the kind and the detail of its table row (60_exceptions.md R170, R171). -/
theorem exec_threeSlot_of_error {e : MachineError} (h : threeSlot f a b dst s = .error e) :
    exec i s = raises (errorKind e) (errorInfo e) s :=
  hexec.trans (congrArg (finish s) h)

/-- The operands' errors come before the result and before the next `pc`, so they do not depend on `f`
(60_exceptions.md R174). -/
theorem operandErrors_of_threeSlot : OperandErrors i a b dst s := by
  have raised {e : MachineError} := fun h =>
    exec_threeSlot_of_error hexec (e := e) (threeSlot_eq_error.mpr h)
  refine ⟨fun v hbad => ?slot1, fun x v hx hbad => ?slot2, fun x y hx hy himm => ?immediateTarget,
    fun x y v hx hy hbad => ?badTarget⟩
  case slot1 => exact raised (.inl (resolve_eq_error.mpr ⟨v, hbad, rfl⟩))
  case slot2 => exact raised (.inr ⟨x, hx, .inl (resolve_eq_error.mpr ⟨v, hbad, rfl⟩)⟩)
  case immediateTarget =>
    exact raised (.inr ⟨x, hx, .inr ⟨y, hy, .inl (writeTarget_eq_error.mpr (.inl ⟨himm, rfl⟩))⟩⟩)
  case badTarget =>
    exact raised (.inr ⟨x, hx, .inr ⟨y, hy, .inl (writeTarget_eq_error.mpr (.inr ⟨v, hbad, rfl⟩))⟩⟩)

theorem exec_threeSlot_of_not_advances {x y r : Int} {d : Nat} (hx : ReadsAs s a x) (hy : ReadsAs s b y)
    (hd : WritesTo s dst d) (hr : f x y = .ok r) (hpc : ¬ Advances s 4) :
    exec i s = raises .addressOverflow (.address .pcAdvance (s.pc + 4)) s :=
  have hnext : nextPc s 4 = .error (.addressOverflow .pcAdvance (s.pc + 4)) :=
    nextPc_eq_error.mpr ⟨Nat.not_lt.mp hpc, rfl⟩
  exec_threeSlot_of_error hexec
    (threeSlot_eq_error.mpr (.inr ⟨x, hx, .inr ⟨y, hy, .inr ⟨d, hd, .inr ⟨r, hr, hnext⟩⟩⟩⟩))

end

end Sys2Proof.Machine
end

section
/-! `lt` and `eq` (spec/45_compare.md): their results never fail, so each rule is the three-slot body's cases. -/

namespace Sys2Proof.Machine

theorem exec_lt (a b dst : Param) (s : State) :
    exec (.lt a b dst) s = finish s (threeSlot (fun x y => .ok (boolCell (decide (x < y)))) a b dst s) := rfl

theorem exec_eq (a b dst : Param) (s : State) :
    exec (.eq a b dst) s = finish s (threeSlot (fun x y => .ok (boolCell (decide (x = y)))) a b dst s) := rfl

theorem boolCell_decide (p : Prop) [Decidable p] : boolCell (decide p) = if p then 1 else 0 := by
  by_cases h : p <;> simp [boolCell, h]

/-- Settles O35: the encoding is the encoder's own arm, and the rest is the three-slot body with the signed `<`. -/
theorem lessThanRule : Obligations.LessThanRule := fun s a b dst =>
  have hexec := exec_lt a b dst s
  ⟨rfl,
    fun x y _ hx hy hd hpc =>
      exec_threeSlot_of_ok hexec hx hy hd (congrArg Except.ok (boolCell_decide (x < y))) hpc,
    operandErrors_of_threeSlot hexec,
    fun _ _ _ hx hy hd hpc => exec_threeSlot_of_not_advances hexec hx hy hd rfl hpc⟩

/-- Settles O36: the encoding is the encoder's own arm, and the rest is the three-slot body with equality. -/
theorem equalsRule : Obligations.EqualsRule := fun s a b dst =>
  have hexec := exec_eq a b dst s
  ⟨rfl,
    fun x y _ hx hy hd hpc =>
      exec_threeSlot_of_ok hexec hx hy hd (congrArg Except.ok (boolCell_decide (x = y))) hpc,
    operandErrors_of_threeSlot hexec,
    fun _ _ _ hx hy hd hpc => exec_threeSlot_of_not_advances hexec hx hy hd rfl hpc⟩

end Sys2Proof.Machine
end

section
/-! Errors as next states (spec/60_exceptions.md R170, R171): a commit reports none, so a step that reports one took an
error, which records its own detail. -/

namespace Sys2Proof.Machine

/-- The detail recorded with an error belongs to its kind (R170). -/
theorem infoFits_errorInfo (e : MachineError) : infoFits (errorKind e) (errorInfo e) = true := by
  cases e <;> rfl

/-- Taking an error is the statements' faulted state, with the kind, its code and the detail of the error. -/
theorem errorState_eq_faultedState (e : MachineError) (s : State) :
    errorState e s = faultedState s (errorKind e) (errorCode (errorKind e)) (errorInfo e) := rfl

theorem ranWell_of_status_none {s : State} (h : s.status = none) : s.ranWell = true := by
  rw [State.ranWell, h]

/-- No instruction's commit reports an error: `out` reports its output and `hlt` its halt, and the others report
nothing (41_step.md R91, R95). -/
theorem ranWell_of_commitOf {i : Instr} {s t : State} (h : CommitOf i s t) : t.ranWell = true := by
  cases i with
  | add a b dst =>
    obtain ⟨x, y, d, -, -, -, -, -, rfl⟩ := h
    exact ranWell_of_status_none rfl
  | mul a b dst =>
    obtain ⟨x, y, d, -, -, -, -, -, rfl⟩ := h
    exact ranWell_of_status_none rfl
  | lt a b dst =>
    obtain ⟨x, y, d, -, -, -, -, rfl⟩ := h
    exact ranWell_of_status_none rfl
  | eq a b dst =>
    obtain ⟨x, y, d, -, -, -, -, rfl⟩ := h
    exact ranWell_of_status_none rfl
  | input dst m2 m3 =>
    obtain ⟨d, v, rest, -, -, -, rfl⟩ := h
    exact ranWell_of_status_none rfl
  | jt a target m3 =>
    obtain ⟨c, v, -, -, ⟨-, -, rfl⟩ | ⟨-, -, rfl⟩⟩ := h <;> exact ranWell_of_status_none rfl
  | jf a target m3 =>
    obtain ⟨c, v, -, -, ⟨-, -, rfl⟩ | ⟨-, -, rfl⟩⟩ := h <;> exact ranWell_of_status_none rfl
  | arb a m2 m3 =>
    obtain ⟨v, -, -, -, -, rfl⟩ := h
    exact ranWell_of_status_none rfl
  | output a m2 m3 =>
    obtain ⟨v, -, -, rfl⟩ := h
    rfl
  | hlt m1 m2 m3 =>
    obtain ⟨v, -, rfl⟩ := h
    rfl

/-- Settles O23: a step commits or takes an error, and a commit does not report one. -/
theorem errorsCommitNothing : Obligations.ErrorsCommitNothing := by
  intro s t hstep herr
  obtain ⟨-, ⟨i, -, hcommit⟩ | ⟨e, rfl⟩⟩ := step_next hstep
  · exact absurd (ranWell_of_commitOf hcommit) (Bool.eq_false_iff.mp herr)
  · exact ⟨errorKind e, errorInfo e, infoFits_errorInfo e, errorState_eq_faultedState e s⟩

end Sys2Proof.Machine
end

section
/-! The decoder against the encoder (spec/30_encoding.md): what `decode` answers from the splitter's fields, which words
those fields come from, and the two round trips. -/

namespace Sys2Proof

/-- A negated word has the negated digits (00_scope.md R10, decision D5). -/
theorem decDigit_neg (w : Int) (i : Nat) : decDigit (-w) i = -decDigit w i := by
  simp only [decDigit, Int.neg_tdiv, Int.neg_tmod]

theorem splitWord_neg (w : Int) :
    splitWord (-w) =
      ⟨-(splitWord w).opcode, -(splitWord w).mode1, -(splitWord w).mode2, -(splitWord w).mode3⟩ := by
  simp only [splitWord, decDigit_neg, Int.neg_tmod]

/-- The fields of a word written out digit by digit, whatever stands above its fifth digit (R61, R62). -/
theorem splitWord_of_digits {op m1 m2 m3 hi : Int} (hop : 0 ≤ op ∧ op < 100) (h1 : 0 ≤ m1 ∧ m1 < 10)
    (h2 : 0 ≤ m2 ∧ m2 < 10) (h3 : 0 ≤ m3 ∧ m3 < 10) (hhi : 0 ≤ hi) :
    splitWord (op + 100 * m1 + 1000 * m2 + 10000 * m3 + 100000 * hi) = ⟨op, m1, m2, m3⟩ := by
  have hw : 0 ≤ op + 100 * m1 + 1000 * m2 + 10000 * m3 + 100000 * hi := by omega
  simp only [splitWord, decDigit_of_nonneg hw, Int.tmod_eq_emod_of_nonneg hw, WordFields.mk.injEq]
  norm_num
  omega

/-- Settles O1: each field of a non-negative word is one decimal place, and truncated division is odd. -/
theorem splitterReadsDecimalDigits : Obligations.SplitterReadsDecimalDigits :=
  ⟨fun _ _ _ _ _ hop hop' h1 h1' h2 h2' h3 h3' hhi =>
    splitWord_of_digits ⟨hop, hop'⟩ ⟨h1, h1'⟩ ⟨h2, h2'⟩ ⟨h3, h3'⟩ hhi, splitWord_neg⟩

/-- The splitter takes an encoded word apart into the fields it was made from (R69). -/
theorem splitWord_encodeWord {op : Int} (hop : 0 ≤ op ∧ op < 100) (m1 m2 m3 : Mode) :
    splitWord (encodeWord op m1 m2 m3) = ⟨op, m1.digit, m2.digit, m3.digit⟩ := by
  have h1 := digit_bounds m1
  have h2 := digit_bounds m2
  have h3 := digit_bounds m3
  have h := splitWord_of_digits (hi := 0) hop ⟨h1.1, by omega⟩ ⟨h2.1, by omega⟩ ⟨h3.1, by omega⟩ le_rfl
  rwa [mul_zero, add_zero] at h

theorem formParam_digit (k : Slot) (m : Mode) (raw : Int) : formParam k m.digit raw = .ok (paramOf m raw) :=
  formParam_eq_ok.mpr ⟨m, modeOfDigit_digit m, rfl⟩

theorem mem_legalDigits_iff {d : Int} : d ∈ Machine.legalDigits ↔ ∃ m : Mode, d = m.digit := by
  constructor
  · intro h
    simp only [Machine.legalDigits, List.mem_cons, List.not_mem_nil, or_false] at h
    rcases h with rfl | rfl | rfl
    exacts [⟨.position, rfl⟩, ⟨.immediate, rfl⟩, ⟨.relative, rfl⟩]
  · rintro ⟨m, rfl⟩
    cases m <;> decide

theorem formParam_of_illegal {d : Int} (h : d ∉ Machine.legalDigits) (k : Slot) (raw : Int) :
    formParam k d raw = .error (.unknownMode k d) := by
  refine formParam_eq_error.mpr ⟨Option.eq_none_iff_forall_ne_some.mpr fun m hm => ?_, rfl⟩
  exact h (mem_legalDigits_iff.mpr ⟨m, modeOfDigit_eq_some.mp hm⟩)

section
variable {w : Int}

theorem decode_of_illegal_mode1 (h1 : (splitWord w).mode1 ∉ Machine.legalDigits) (r1 r2 r3 : Int) :
    decode w r1 r2 r3 = .error (.unknownMode .one (splitWord w).mode1) := by
  rw [decode, formParam_of_illegal h1]
  rfl

theorem decode_of_illegal_mode2 (h1 : (splitWord w).mode1 ∈ Machine.legalDigits)
    (h2 : (splitWord w).mode2 ∉ Machine.legalDigits) (r1 r2 r3 : Int) :
    decode w r1 r2 r3 = .error (.unknownMode .two (splitWord w).mode2) := by
  obtain ⟨m1, hm1⟩ := mem_legalDigits_iff.mp h1
  rw [decode, formParam_of_illegal h2, hm1, formParam_digit]
  rfl

theorem decode_of_illegal_mode3 (h1 : (splitWord w).mode1 ∈ Machine.legalDigits)
    (h2 : (splitWord w).mode2 ∈ Machine.legalDigits) (h3 : (splitWord w).mode3 ∉ Machine.legalDigits)
    (r1 r2 r3 : Int) : decode w r1 r2 r3 = .error (.unknownMode .three (splitWord w).mode3) := by
  obtain ⟨m1, hm1⟩ := mem_legalDigits_iff.mp h1
  obtain ⟨m2, hm2⟩ := mem_legalDigits_iff.mp h2
  rw [decode, formParam_of_illegal h3, hm1, hm2, formParam_digit, formParam_digit]
  rfl

/-- With three legal mode digits the decoder is the dispatch on the opcode (R68, R73). -/
theorem decode_of_digits {m1 m2 m3 : Mode} (h1 : (splitWord w).mode1 = m1.digit)
    (h2 : (splitWord w).mode2 = m2.digit) (h3 : (splitWord w).mode3 = m3.digit) (r1 r2 r3 : Int) :
    decode w r1 r2 r3 =
      dispatchOpcode (splitWord w).opcode (paramOf m1 r1) (paramOf m2 r2) (paramOf m3 r3) := by
  rw [decode, h1, h2, h3, formParam_digit, formParam_digit, formParam_digit]
  rfl

end

theorem dispatchOpcode_of_notMem {op : Int} (h : op ∉ Machine.opcodeTable) (p1 p2 p3 : Param) :
    dispatchOpcode op p1 p2 p3 = .error (.unknownOpcode op) := by
  simp only [Machine.opcodeTable, List.mem_cons, List.not_mem_nil, or_false, not_or] at h
  simp only [dispatchOpcode, h, if_false]

theorem dispatchOpcode_of_mem {op : Int} (h : op ∈ Machine.opcodeTable) (p1 p2 p3 : Param) :
    ∃ i, dispatchOpcode op p1 p2 p3 = .ok i := by
  simp only [Machine.opcodeTable, List.mem_cons, List.not_mem_nil, or_false] at h
  rcases h with rfl | rfl | rfl | rfl | rfl | rfl | rfl | rfl | rfl | rfl <;> exact ⟨_, rfl⟩

theorem decode_eq_dispatchOpcode {w : Int} (h1 : (splitWord w).mode1 ∈ Machine.legalDigits)
    (h2 : (splitWord w).mode2 ∈ Machine.legalDigits) (h3 : (splitWord w).mode3 ∈ Machine.legalDigits)
    (r1 r2 r3 : Int) : ∃ p1 p2 p3, decode w r1 r2 r3 = dispatchOpcode (splitWord w).opcode p1 p2 p3 := by
  obtain ⟨m1, hm1⟩ := mem_legalDigits_iff.mp h1
  obtain ⟨m2, hm2⟩ := mem_legalDigits_iff.mp h2
  obtain ⟨m3, hm3⟩ := mem_legalDigits_iff.mp h3
  exact ⟨_, _, _, decode_of_digits hm1 hm2 hm3 r1 r2 r3⟩

theorem decode_of_unknown_opcode {w : Int} (h1 : (splitWord w).mode1 ∈ Machine.legalDigits)
    (h2 : (splitWord w).mode2 ∈ Machine.legalDigits) (h3 : (splitWord w).mode3 ∈ Machine.legalDigits)
    (hop : (splitWord w).opcode ∉ Machine.opcodeTable) (r1 r2 r3 : Int) :
    decode w r1 r2 r3 = .error (.unknownOpcode (splitWord w).opcode) := by
  obtain ⟨p1, p2, p3, h⟩ := decode_eq_dispatchOpcode h1 h2 h3 r1 r2 r3
  exact h.trans (dispatchOpcode_of_notMem hop p1 p2 p3)

theorem decode_of_legal {w : Int} (h1 : (splitWord w).mode1 ∈ Machine.legalDigits)
    (h2 : (splitWord w).mode2 ∈ Machine.legalDigits) (h3 : (splitWord w).mode3 ∈ Machine.legalDigits)
    (hop : (splitWord w).opcode ∈ Machine.opcodeTable) (r1 r2 r3 : Int) : ∃ i, decode w r1 r2 r3 = .ok i := by
  obtain ⟨p1, p2, p3, h⟩ := decode_eq_dispatchOpcode h1 h2 h3 r1 r2 r3
  exact h ▸ dispatchOpcode_of_mem hop p1 p2 p3

/-- Settles O4, one lemma about `decode` per case. -/
theorem decoderChecksModesThenOpcode : Obligations.DecoderChecksModesThenOpcode := fun _ r1 r2 r3 =>
  ⟨fun h1 => decode_of_illegal_mode1 h1 r1 r2 r3,
    fun h1 h2 => decode_of_illegal_mode2 h1 h2 r1 r2 r3,
    fun h1 h2 h3 => decode_of_illegal_mode3 h1 h2 h3 r1 r2 r3,
    fun h1 h2 h3 hop => decode_of_unknown_opcode h1 h2 h3 hop r1 r2 r3,
    fun h1 h2 h3 hop => decode_of_legal h1 h2 h3 hop r1 r2 r3⟩

/-- A negative word's remainder is not positive (decision D5). -/
theorem tmod_nonpos {w : Int} (hw : w ≤ 0) (n : Int) : w.tmod n ≤ 0 := by
  have h := Int.tmod_nonneg n (Int.neg_nonneg.mpr hw)
  rw [Int.neg_tmod] at h
  exact Int.neg_nonneg.mp h

theorem decDigit_nonpos {w : Int} (hw : w ≤ 0) (i : Nat) : decDigit w i ≤ 0 := by
  have hneg := decDigit_neg w i
  rw [decDigit_of_nonneg (Int.neg_nonneg.mpr hw)] at hneg
  omega

theorem mem_legalDigits_iff_of_nonpos {d : Int} (hd : d ≤ 0) : d ∈ Machine.legalDigits ↔ d = 0 := by
  simp only [Machine.legalDigits, List.mem_cons, List.not_mem_nil, or_false]
  omega

theorem notMem_opcodeTable_of_nonpos {op : Int} (h : op ≤ 0) : op ∉ Machine.opcodeTable := by
  simp only [Machine.opcodeTable, List.mem_cons, List.not_mem_nil, or_false]
  omega

/-- Settles O3: no field of a negative word is positive, so its only legal mode digit is 0 and its opcode is not in the
table. -/
theorem negativeWordsNeverDecode : Obligations.NegativeWordsNeverDecode := by
  intro w r1 r2 r3 hw
  have h1 := mem_legalDigits_iff_of_nonpos (d := (splitWord w).mode1) (decDigit_nonpos hw.le 2)
  have h2 := mem_legalDigits_iff_of_nonpos (d := (splitWord w).mode2) (decDigit_nonpos hw.le 3)
  have h3 := mem_legalDigits_iff_of_nonpos (d := (splitWord w).mode3) (decDigit_nonpos hw.le 4)
  simp only [← h1, ← h2, ← h3, ne_eq, ite_not]
  split_ifs with l1 l2 l3
  · exact decode_of_unknown_opcode l1 l2 l3 (notMem_opcodeTable_of_nonpos (tmod_nonpos hw.le 100)) r1 r2 r3
  · exact decode_of_illegal_mode3 l1 l2 l3 r1 r2 r3
  · exact decode_of_illegal_mode2 l1 l2 r1 r2 r3
  · exact decode_of_illegal_mode1 l1 r1 r2 r3

/-- An encoded word decodes by its opcode, with the modes it was encoded with (R69, R70). -/
theorem decode_encodeWord {op : Int} (hop : 0 ≤ op ∧ op < 100) (m1 m2 m3 : Mode) (r1 r2 r3 : Int) :
    decode (encodeWord op m1 m2 m3) r1 r2 r3 =
      dispatchOpcode op (paramOf m1 r1) (paramOf m2 r2) (paramOf m3 r3) := by
  have hsplit := splitWord_encodeWord hop m1 m2 m3
  have h := decode_of_digits (w := encodeWord op m1 m2 m3) (m1 := m1) (m2 := m2) (m3 := m3)
    (by rw [hsplit]) (by rw [hsplit]) (by rw [hsplit]) r1 r2 r3
  rwa [hsplit] at h

theorem bounds_of_mem_opcodeTable {op : Int} (h : op ∈ Machine.opcodeTable) : 0 ≤ op ∧ op < 100 := by
  simp only [Machine.opcodeTable, List.mem_cons, List.not_mem_nil, or_false] at h
  omega

/-- The encoding of an instruction is a word with an opcode of the table and then the raw operands of its slots, and
that opcode dispatches back to the instruction: its used slots are formed from their mode and raw operand, its unused
slots give their mode back whatever cell stands there (R69, R70, R72). -/
theorem encode_eq_word_cons (i : Instr) :
    ∃ op m1 m2 m3, op ∈ Machine.opcodeTable ∧ encode i = encodeWord op m1 m2 m3 :: i.params.map Param.raw ∧
      ∀ rest : List Int, dispatchOpcode op (paramOf m1 ((i.params.map Param.raw ++ rest).getD 0 0))
        (paramOf m2 ((i.params.map Param.raw ++ rest).getD 1 0))
        (paramOf m3 ((i.params.map Param.raw ++ rest).getD 2 0)) = .ok i := by
  cases i with
  | add a b dst => exact ⟨1, _, _, _, by decide, rfl, fun _ => by simp [dispatchOpcode, Instr.params]⟩
  | mul a b dst => exact ⟨2, _, _, _, by decide, rfl, fun _ => by simp [dispatchOpcode, Instr.params]⟩
  | input dst m2 m3 => exact ⟨3, _, _, _, by decide, rfl, fun _ => by simp [dispatchOpcode, Instr.params]⟩
  | output a m2 m3 => exact ⟨4, _, _, _, by decide, rfl, fun _ => by simp [dispatchOpcode, Instr.params]⟩
  | jt a target m3 => exact ⟨5, _, _, _, by decide, rfl, fun _ => by simp [dispatchOpcode, Instr.params]⟩
  | jf a target m3 => exact ⟨6, _, _, _, by decide, rfl, fun _ => by simp [dispatchOpcode, Instr.params]⟩
  | lt a b dst => exact ⟨7, _, _, _, by decide, rfl, fun _ => by simp [dispatchOpcode, Instr.params]⟩
  | eq a b dst => exact ⟨8, _, _, _, by decide, rfl, fun _ => by simp [dispatchOpcode, Instr.params]⟩
  | arb a m2 m3 => exact ⟨9, _, _, _, by decide, rfl, fun _ => by simp [dispatchOpcode, Instr.params]⟩
  | hlt m1 m2 m3 => exact ⟨99, m1, m2, m3, by decide, rfl, fun _ => by simp [dispatchOpcode]⟩

/-- Settles O5: the word of the encoding gives opcode and modes back, and the opcode dispatches to the instruction. -/
theorem decodeAfterEncodeIsIdentity : Obligations.DecodeAfterEncodeIsIdentity := by
  intro i rest
  obtain ⟨op, m1, m2, m3, hop, hencode, hdispatch⟩ := encode_eq_word_cons i
  rw [hencode, List.cons_append]
  exact (decode_encodeWord (bounds_of_mem_opcodeTable hop) m1 m2 m3 _ _ _).trans (hdispatch rest)

theorem encodeWord_bounds {op : Int} (hop : 0 ≤ op ∧ op < 100) (m1 m2 m3 : Mode) :
    0 ≤ encodeWord op m1 m2 m3 ∧ encodeWord op m1 m2 m3 < 100000 := by
  have h1 := digit_bounds m1
  have h2 := digit_bounds m2
  have h3 := digit_bounds m3
  rw [encodeWord]
  omega

theorem length_encode (i : Instr) : (encode i).length = i.width := by
  obtain ⟨op, m1, m2, m3, -, hencode, -⟩ := encode_eq_word_cons i
  rw [hencode, List.length_cons, List.length_map, Instr.width, Nat.add_comm]

/-- Settles O7: the word is below 100000, and the other cells are the operands, which fit in a well-formed
instruction. -/
theorem encodingFitsItsCells : Obligations.EncodingFitsItsCells := by
  intro i hwf
  refine ⟨length_encode i, fun c hc => ?_⟩
  obtain ⟨op, m1, m2, m3, hop, hencode, -⟩ := encode_eq_word_cons i
  rw [hencode] at hc
  rcases List.mem_cons.mp hc with rfl | hraw
  · have hword := encodeWord_bounds (bounds_of_mem_opcodeTable hop) m1 m2 m3
    exact (Machine.inW_iff _).mpr ⟨by omega, by omega⟩
  · obtain ⟨p, hp, rfl⟩ := List.mem_map.mp hraw
    exact hwf p hp

/-- Everything a word that decodes can be: one with three legal mode digits, whose opcode dispatches to the
instruction. -/
theorem decode_eq_ok {w r1 r2 r3 : Int} {i : Instr} :
    decode w r1 r2 r3 = .ok i ↔ ∃ m1 m2 m3 : Mode, (splitWord w).mode1 = m1.digit ∧
      (splitWord w).mode2 = m2.digit ∧ (splitWord w).mode3 = m3.digit ∧
      dispatchOpcode (splitWord w).opcode (paramOf m1 r1) (paramOf m2 r2) (paramOf m3 r3) = .ok i := by
  constructor
  · simp only [decode, Machine.bind_eq_ok, formParam_eq_ok, modeOfDigit_eq_some]
    rintro ⟨_, ⟨m1, h1, rfl⟩, _, ⟨m2, h2, rfl⟩, _, ⟨m3, h3, rfl⟩, h⟩
    exact ⟨m1, m2, m3, h1, h2, h3, h⟩
  · rintro ⟨m1, m2, m3, h1, h2, h3, h⟩
    exact (decode_of_digits h1 h2 h3 r1 r2 r3).trans h

/-- Encoding what the dispatch made of an opcode and three parameters writes them out again, as far as the instruction
uses its slots (R69, R74). -/
theorem encode_of_dispatchOpcode {op : Int} {p1 p2 p3 : Param} {i : Instr}
    (h : dispatchOpcode op p1 p2 p3 = .ok i) :
    encode i = [encodeWord op p1.mode p2.mode p3.mode, p1.raw, p2.raw, p3.raw].take i.width := by
  have hop : op ∈ Machine.opcodeTable := by
    by_contra hop
    rw [dispatchOpcode_of_notMem hop] at h
    cases h
  simp only [Machine.opcodeTable, List.mem_cons, List.not_mem_nil, or_false] at hop
  rcases hop with rfl | rfl | rfl | rfl | rfl | rfl | rfl | rfl | rfl | rfl <;> (cases h; rfl)

theorem nonneg_of_decode {w r1 r2 r3 : Int} {i : Instr} (h : decode w r1 r2 r3 = .ok i) : 0 ≤ w := by
  by_contra hw
  rw [negativeWordsNeverDecode w r1 r2 r3 (Int.not_le.mp hw)] at h
  split_ifs at h

/-- Settles O6: a word that decodes is not negative, so its fields add up to its low five digits. -/
theorem encodeAfterDecodeGivesTheWordBack : Obligations.EncodeAfterDecodeGivesTheWordBack := by
  intro w r1 r2 r3 i h
  have hfields := splitWord_reencodes (nonneg_of_decode h)
  obtain ⟨m1, m2, m3, h1, h2, h3, hdispatch⟩ := decode_eq_ok.mp h
  have hword : encodeWord (splitWord w).opcode m1 m2 m3 = w.tmod 100000 := by
    rw [encodeWord, ← h1, ← h2, ← h3, hfields]
  simpa only [mode_paramOf, raw_paramOf, hword] using encode_of_dispatchOpcode hdispatch

/-- The raw operands of a decoded instruction are the cells after its word, as many as it has slots (R67). -/
theorem raws_of_decode {w r1 r2 r3 : Int} {i : Instr} (h : decode w r1 r2 r3 = .ok i) :
    i.params.map Param.raw = [r1, r2, r3].take i.params.length := by
  have hcells := encodeAfterDecodeGivesTheWordBack w r1 r2 r3 i h
  obtain ⟨op, m1, m2, m3, -, hencode, -⟩ := encode_eq_word_cons i
  rw [hencode, Instr.width, Nat.add_comm, List.take_succ_cons] at hcells
  exact (List.cons.inj hcells).2

/-- What is decoded from cells that fit is well-formed (R67). -/
theorem wellFormed_of_decode {w r1 r2 r3 : Int} {i : Instr} (h : decode w r1 r2 r3 = .ok i) (h1 : inW r1)
    (h2 : inW r2) (h3 : inW r3) : i.WellFormed := by
  intro p hp
  have hraw : p.raw ∈ [r1, r2, r3] :=
    List.mem_of_mem_take (raws_of_decode h ▸ List.mem_map_of_mem hp)
  simp only [List.mem_cons, List.not_mem_nil, or_false] at hraw
  rcases hraw with hraw | hraw | hraw <;> rw [hraw] <;> assumption

/-- Settles O8: each is a closed word, which the decoder computes. -/
theorem specWordsDecode : Obligations.SpecWordsDecode := by
  unfold Obligations.SpecWordsDecode
  decide

end Sys2Proof
end

section
/-! One body per instruction (spec/41_step.md R94, R95): `exec` is the body with its error taken. What `exec` and `step`
answer is then said once from what the body or the decoder comes to. -/

namespace Sys2Proof.Machine

/-- The body that `exec` runs for an instruction, before an error is taken. -/
def body : Instr → State → Except MachineError State
  | .add a b dst => threeSlot (fun x y => narrow 1 (x + y)) a b dst
  | .mul a b dst => threeSlot (fun x y => narrow 2 (x * y)) a b dst
  | .input dst _ _ => inputBody dst
  | .output a _ _ => outputBody a
  | .jt a target _ => jumpWhen (fun c => decide (c ≠ 0)) a target
  | .jf a target _ => jumpWhen (fun c => decide (c = 0)) a target
  | .lt a b dst => threeSlot (fun x y => .ok (boolCell (decide (x < y)))) a b dst
  | .eq a b dst => threeSlot (fun x y => .ok (boolCell (decide (x = y)))) a b dst
  | .arb a _ _ => arbBody Config.rbNegPolicy a
  | .hlt _ _ _ => haltBody

theorem exec_eq_finish_body (i : Instr) (s : State) : exec i s = finish s (body i s) := by
  cases i <;> rfl

theorem exec_of_body_ok {i : Instr} {s t : State} (h : body i s = .ok t) : exec i s = .next t := by
  rw [exec_eq_finish_body, h, finish_ok]

/-- Taking an error is raising it with the kind and the detail of its table row (60_exceptions.md R170, R171). -/
theorem finish_error_eq_raises (s : State) (e : MachineError) :
    finish s (.error e) = raises (errorKind e) (errorInfo e) s := rfl

theorem exec_of_body_error {i : Instr} {s : State} {e : MachineError} (h : body i s = .error e) :
    exec i s = raises (errorKind e) (errorInfo e) s := by
  rw [exec_eq_finish_body, h, finish_error_eq_raises]

/-- Settles O9: no body looks at the modes of the unused slots. -/
theorem unusedModesHaveNoEffect : Obligations.UnusedModesHaveNoEffect :=
  fun _ _ _ _ _ _ _ _ _ => ⟨rfl, rfl, rfl, rfl, rfl, rfl⟩

theorem step_of_decoded {s : State} {i : Instr} (hfault : s.fault = none) (h : fetchDecode s = .ok i) :
    step s = exec i s := by
  rw [step, hfault, h]

theorem step_of_decode_error {s : State} {e : MachineError} (hfault : s.fault = none)
    (h : fetchDecode s = .error e) : step s = raises (errorKind e) (errorInfo e) s := by
  rw [step, hfault, h]
  rfl

theorem step_of_faulted {s : State} {r : FaultRecord} (h : s.fault = some r) : step s = .refused .faulted := by
  rw [step, h]

/-- Settles O19: the fetch reads the four cells at `pc`. -/
theorem stepRunsTheDecodedInstruction : Obligations.StepRunsTheDecodedInstruction :=
  fun _ _ => step_of_decoded

/-- Settles O20: the decoder's errors on an illegal mode digit, taken by the step. -/
theorem stepRaisesUnknownMode : Obligations.StepRaisesUnknownMode := fun _ hfault =>
  ⟨fun h1 => step_of_decode_error hfault (decode_of_illegal_mode1 h1 _ _ _),
    fun h1 h2 => step_of_decode_error hfault (decode_of_illegal_mode2 h1 h2 _ _ _),
    fun h1 h2 h3 => step_of_decode_error hfault (decode_of_illegal_mode3 h1 h2 h3 _ _ _)⟩

/-- Settles O21: the decoder's error on an unknown opcode is a status, so the step call returns it, and a record, so
the next step is refused. -/
theorem stepRaisesUnknownOpcode : Obligations.StepRaisesUnknownOpcode := by
  intro s hfault h1 h2 h3 hop
  have hstep := step_of_decode_error hfault (decode_of_unknown_opcode h1 h2 h3 hop _ _ _)
  exact ⟨hstep, fun fuel => ⟨_, stepCall_returns hstep rfl, rfl, step_of_faulted rfl⟩⟩

/-- Settles O18: the first cell of an empty memory reads 0, whose opcode is not in the table. -/
theorem emptyProgramRaisesUnknownOpcodeZero : Obligations.EmptyProgramRaisesUnknownOpcodeZero :=
  step_of_decode_error (e := .unknownOpcode 0) rfl rfl

/-- Settles O22: the recorded fault refuses the step, and `add_input` looks at the value only. -/
theorem faultedInstanceIsRefused : Obligations.FaultedInstanceIsRefused := fun _ _ h =>
  have hstep := step_of_faulted h
  ⟨hstep, fun _ => stepCall_of_refused hstep, fun _ => addInput_of_inW⟩

theorem exists_exec_next (i : Instr) (s : State) : ∃ t, exec i s = .next t := by
  rcases exec_cases i s with ⟨t, h, -⟩ | ⟨e, h⟩
  exacts [⟨t, h⟩, ⟨_, h⟩]

/-- Settles O24: an instruction commits or takes an error, and a step that is not refused runs one or takes the
decoder's error. -/
theorem everyStepHasANextState : Obligations.EveryStepHasANextState := by
  refine ⟨exists_exec_next, fun s hfault => ?_⟩
  cases hdecode : fetchDecode s with
  | error e => exact ⟨_, step_of_decode_error hfault hdecode⟩
  | ok i => exact (step_of_decoded hfault hdecode) ▸ exists_exec_next i s

end Sys2Proof.Machine
end

section
/-! What an instruction commits (spec/41_step.md R95), by the shape of the commit: the four three-slot instructions
share one, and a jump states its new `pc` as one conditional. Registers, frames, statuses and `pc` follow per shape. -/

namespace Sys2Proof.Machine

/-- `i` is one of the instructions of format F3 with a write target in slot 3 (30_encoding.md R69). -/
def IsThreeSlot (i : Instr) (a b dst : Param) : Prop :=
  i = .add a b dst ∨ i = .mul a b dst ∨ i = .lt a b dst ∨ i = .eq a b dst

/-- What `i` can commit from `s`, by the shape of the commit (`commitShape_of_body` ties it to the model). -/
inductive CommitShape (s : State) : Instr → State → Prop where
  | store {i : Instr} {a b dst : Param} {d : Nat} {v : Int} (hi : IsThreeSlot i a b dst) (hd : WritesTo s dst d)
      (hv : inW v) (hpc : Advances s 4) : CommitShape s i ((s.storeAt d v).continueAt (s.pc + 4))
  | input {dst : Param} {m2 m3 : Mode} {d : Nat} {v : Int} {rest : List Int} (hd : WritesTo s dst d)
      (hq : s.inq = v :: rest) (hpc : Advances s 2) :
      CommitShape s (.input dst m2 m3) { (s.storeAt d v).continueAt (s.pc + 2) with inq := rest }
  | output {a : Param} {m2 m3 : Mode} {v : Int} (hv : ReadsAs s a v) (hpc : Advances s 2) :
      CommitShape s (.output a m2 m3) { s with pc := s.pc + 2, lastOut := some v, status := some (.ready v) }
  | jt {a target : Param} {m3 : Mode} {c v : Int} {n : Nat} (hc : ReadsAs s a c) (hv : ReadsAs s target v)
      (hn : (n : Int) = if c ≠ 0 then v else s.pc + 3) (hlt : n < Config.addrLimit) :
      CommitShape s (.jt a target m3) (s.continueAt n)
  | jf {a target : Param} {m3 : Mode} {c v : Int} {n : Nat} (hc : ReadsAs s a c) (hv : ReadsAs s target v)
      (hn : (n : Int) = if c = 0 then v else s.pc + 3) (hlt : n < Config.addrLimit) :
      CommitShape s (.jf a target m3) (s.continueAt n)
  | arb {a : Param} {m2 m3 : Mode} {r : Int} (hr : inW r) (hpc : Advances s 2) :
      CommitShape s (.arb a m2 m3) { s.continueAt (s.pc + 2) with rb := r }
  | halt {m1 m2 m3 : Mode} {v : Int} (hv : s.lastOut = some v) :
      CommitShape s (.hlt m1 m2 m3) { s with status := some (.halted v) }

/-- A three-slot body whose result always fits commits one store. -/
theorem commitShape_of_threeSlot {i : Instr} {f : Int → Int → Except MachineError Int} {a b dst : Param} {s t : State}
    (hi : IsThreeSlot i a b dst) (hf : ∀ x y r, f x y = .ok r → inW r) (h : threeSlot f a b dst s = .ok t) :
    CommitShape s i t := by
  obtain ⟨x, y, d, r, -, -, hd, hr, hpc, rfl⟩ := threeSlot_eq_ok.mp h
  exact .store hi hd (hf x y r hr) hpc

theorem inW_of_narrow {op r v : Int} (h : narrow op r = .ok v) : inW v := by
  obtain ⟨hfits, rfl⟩ := narrow_eq_ok.mp h
  exact hfits

/-- The `pc` of a jump that commits: the target's value or the next instruction, a legal address either way. -/
theorem jumpWhen_pc {taken : Int → Bool} {a target : Param} {s t : State} (h : jumpWhen taken a target s = .ok t) :
    ∃ c v, ∃ n : Nat, ReadsAs s a c ∧ ReadsAs s target v ∧ (n : Int) = (if taken c then v else s.pc + 3) ∧
      n < Config.addrLimit ∧ t = s.continueAt n := by
  obtain ⟨c, v, hc, hv, ⟨ht, hlegal, rfl⟩ | ⟨ht, hpc, rfl⟩⟩ := jumpWhen_eq_ok.mp h
  · obtain ⟨h0, hlt⟩ := hlegal
    exact ⟨c, v, _, hc, hv, by rw [if_pos ht, Int.toNat_of_nonneg h0], by omega, rfl⟩
  · exact ⟨c, v, _, hc, hv, by simp [ht], hpc, rfl⟩

theorem commitShape_of_body {i : Instr} {s t : State} (h : body i s = .ok t) : CommitShape s i t := by
  cases i with
  | add a b dst => exact commitShape_of_threeSlot (.inl rfl) (fun _ _ _ => inW_of_narrow) h
  | mul a b dst => exact commitShape_of_threeSlot (.inr (.inl rfl)) (fun _ _ _ => inW_of_narrow) h
  | lt a b dst =>
    exact commitShape_of_threeSlot (.inr (.inr (.inl rfl))) (fun _ _ _ hr => Except.ok.inj hr ▸ inW_boolCell _) h
  | eq a b dst =>
    exact commitShape_of_threeSlot (.inr (.inr (.inr rfl))) (fun _ _ _ hr => Except.ok.inj hr ▸ inW_boolCell _) h
  | input dst m2 m3 =>
    obtain ⟨d, v, rest, hd, hq, hpc, rfl⟩ := inputBody_eq_ok.mp h
    exact .input hd hq hpc
  | output a m2 m3 =>
    obtain ⟨v, hv, hpc, rfl⟩ := outputBody_eq_ok.mp h
    exact .output hv hpc
  | jt a target m3 =>
    obtain ⟨c, v, n, hc, hv, hn, hlt, rfl⟩ := jumpWhen_pc h
    exact .jt hc hv (by simpa only [decide_eq_true_eq] using hn) hlt
  | jf a target m3 =>
    obtain ⟨c, v, n, hc, hv, hn, hlt, rfl⟩ := jumpWhen_pc h
    exact .jf hc hv (by simpa only [decide_eq_true_eq] using hn) hlt
  | arb a m2 m3 =>
    obtain ⟨v, -, hr, -, hpc, rfl⟩ := arbBody_eq_ok.mp h
    exact .arb hr hpc
  | hlt m1 m2 m3 =>
    obtain ⟨v, hv, rfl⟩ := haltBody_eq_ok.mp h
    exact .halt hv

/-- A next state of `exec` is the instruction's commit, or the taking of the error its body came to. -/
theorem exec_next_shape {i : Instr} {s t : State} (h : exec i s = .next t) :
    CommitShape s i t ∨ ∃ e, body i s = .error e ∧ t = errorState e s :=
  (finish_eq_next.mp (exec_eq_finish_body i s ▸ h)).imp_left commitShape_of_body

/-- A next state of `step` is the commit of the decoded instruction, or the taking of an error. -/
theorem step_next_shape {s t : State} (h : step s = .next t) :
    s.fault = none ∧ ((∃ i, fetchDecode s = .ok i ∧ CommitShape s i t) ∨ ∃ e, t = errorState e s) := by
  rcases step_cases s with ⟨-, h'⟩ | ⟨hfault, e, -, h'⟩ | ⟨hfault, i, hdecode, h'⟩
  · rw [h'] at h
    cases h
  · rw [h'] at h
    exact ⟨hfault, .inr ⟨e, (Host.Outcome.next.inj h).symm⟩⟩
  · rw [h'] at h
    exact ⟨hfault, (exec_next_shape h).imp (fun hc => ⟨i, hdecode, hc⟩) fun ⟨e, _, ht⟩ => ⟨e, ht⟩⟩

/-! ### What every commit leaves -/

theorem CommitShape.fault_eq {i : Instr} {s t : State} (h : CommitShape s i t) : t.fault = s.fault := by
  cases h <;> rfl

/-- A commit tells the host nothing, or a value which is then the last output (41_step.md R91, R96). -/
theorem CommitShape.status_cases {i : Instr} {s t : State} (h : CommitShape s i t) :
    t.status = none ∨ ∃ v, t.lastOut = some v ∧ (t.status = some (.ready v) ∨ t.status = some (.halted v)) := by
  cases h with
  | output => exact .inr ⟨_, rfl, .inl rfl⟩
  | halt hv => exact .inr ⟨_, hv, .inr rfl⟩
  | store | input | jt | jf | arb => exact .inl rfl

theorem CommitShape.ranWell {i : Instr} {s t : State} (h : CommitShape s i t) : t.ranWell = true := by
  rcases h.status_cases with hst | ⟨v, -, hst | hst⟩ <;> rw [State.ranWell, hst]

theorem errorState_ranWell (e : MachineError) (s : State) : (errorState e s).ranWell = false := rfl

theorem fault_of_ranWell {i : Instr} {s t : State} (h : exec i s = .next t) (hran : t.ranWell = true) :
    t.fault = s.fault := by
  rcases exec_next_shape h with hcommit | ⟨e, -, rfl⟩
  · exact hcommit.fault_eq
  · exact absurd hran Bool.false_ne_true

theorem eq_errorState_of_not_ranWell {i : Instr} {s t : State} (h : exec i s = .next t)
    (herr : t.ranWell = false) : ∃ e, t = errorState e s := by
  rcases exec_next_shape h with hcommit | ⟨e, -, rfl⟩
  · exact absurd hcommit.ranWell (Bool.eq_false_iff.mp herr)
  · exact ⟨e, rfl⟩

/-- Settles O30: a commit of each shape writes its own registers, and an error writes none. -/
theorem onlyTheirInstructionWritesARegister : Obligations.OnlyTheirInstructionWritesARegister := by
  intro i s t h
  rcases exec_next_shape h with hcommit | ⟨e, -, rfl⟩
  · cases hcommit with
    | store hi => rcases hi with rfl | rfl | rfl | rfl <;> exact ⟨rfl, rfl, rfl, trivial⟩
    | input => exact ⟨rfl, trivial, rfl, trivial⟩
    | output => exact ⟨rfl, rfl, trivial, rfl⟩
    | jt | jf | halt => exact ⟨rfl, rfl, rfl, rfl⟩
    | arb => exact ⟨trivial, rfl, rfl, rfl⟩
  · cases i <;> refine ⟨?_, ?_, ?_, ?_⟩ <;> trivial

/-- Settles O31: the shape of a commit gives the new `pc`, and an error leaves it. -/
theorem pcMovesByWidthTargetOrNotAtAll : Obligations.PcMovesByWidthTargetOrNotAtAll := by
  intro i s t h
  rw [← addrLimit_eq]
  rcases exec_next_shape h with hcommit | ⟨e, -, rfl⟩
  · rw [if_pos hcommit.ranWell]
    cases hcommit with
    | store hi _ _ hpc => rcases hi with rfl | rfl | rfl | rfl <;> exact ⟨rfl, hpc⟩
    | input _ _ hpc => exact ⟨rfl, hpc⟩
    | output _ hpc => exact ⟨rfl, hpc⟩
    | jt hc hv hn => exact ⟨_, _, hc, hv, hn⟩
    | jf hc hv hn => exact ⟨_, _, hc, hv, hn⟩
    | arb _ hpc => exact ⟨rfl, hpc⟩
    | halt => rfl
  · rw [errorState_ranWell, if_neg Bool.false_ne_true]
    rfl

/-! ### Frames -/

/-- Storing at the write target leaves every cell that is not the write target. -/
theorem read_storeAt_of_not_target {s : State} {k : Slot} {dst : Param} {d x : Nat} (hd : WritesTo s dst d)
    (hx : writeTarget s k dst ≠ .ok x) (v : Int) : (s.storeAt d v).mem.read x = s.mem.read x := by
  have hne : x ≠ d := fun hxd => hx (hxd ▸ writeTarget_eq_ok.mpr hd)
  rw [storeAt_mem, read_write, if_neg hne]

theorem IsThreeSlot.dst_unique {i : Instr} {a b dst a' b' dst' : Param} (h : IsThreeSlot i a b dst)
    (h' : IsThreeSlot i a' b' dst') : dst' = dst := by
  rcases h with rfl | rfl | rfl | rfl <;>
    · simp only [IsThreeSlot, reduceCtorEq, Instr.add.injEq, Instr.mul.injEq, Instr.lt.injEq, Instr.eq.injEq,
        false_or, or_false] at h'
      exact h'.2.2.symm

/-- The commit of a three-slot instruction is one store. -/
theorem CommitShape.of_threeSlot {i : Instr} {a b dst : Param} {s t : State} (h : CommitShape s i t)
    (hi : IsThreeSlot i a b dst) :
    ∃ d v, WritesTo s dst d ∧ t = (s.storeAt d v).continueAt (s.pc + 4) := by
  cases h with
  | store hi' hd => exact ⟨_, _, IsThreeSlot.dst_unique hi hi' ▸ hd, rfl⟩
  | input | output | jt | jf | arb | halt => simp [IsThreeSlot] at hi

/-- Settles O48: the commit is one store at the write target, and an error leaves everything but the record. -/
theorem threeSlotFrame : Obligations.ThreeSlotFrame := by
  intro i a b dst s t hi h
  rcases exec_next_shape h with hcommit | ⟨e, -, rfl⟩
  · have hran := hcommit.ranWell
    obtain ⟨d, v, hd, rfl⟩ := hcommit.of_threeSlot hi
    exact ⟨rfl, rfl, rfl, fun _ => rfl, fun x hx => read_storeAt_of_not_target hd hx v,
      .inr ⟨d, writeTarget_eq_ok.mpr hd, len_write ..⟩, fun herr => absurd hran (Bool.eq_false_iff.mp herr)⟩
  · exact ⟨rfl, rfl, rfl, fun hran => absurd hran Bool.false_ne_true, fun _ _ => rfl, .inl rfl, fun _ => ⟨rfl, rfl⟩⟩

/-- Settles O49: the commit stores the front of the queue at the write target and leaves the rest of the queue. -/
theorem inputFrame : Obligations.InputFrame := by
  intro dst m2 m3 s t h
  rcases exec_next_shape h with hcommit | ⟨e, -, rfl⟩
  · have hran := hcommit.ranWell
    cases hcommit with
    | store hi => simp [IsThreeSlot] at hi
    | @input _ _ _ d v rest hd hq =>
      have htail : rest = s.inq.tail := by rw [hq, List.tail_cons]
      exact ⟨rfl, rfl, fun _ => ⟨rfl, htail⟩, fun x hx => read_storeAt_of_not_target hd hx v,
        .inr ⟨d, writeTarget_eq_ok.mpr hd, len_write ..⟩, fun herr => absurd hran (Bool.eq_false_iff.mp herr)⟩
  · exact ⟨rfl, rfl, fun hran => absurd hran Bool.false_ne_true, fun _ _ => rfl, .inl rfl,
      fun _ => ⟨rfl, rfl, rfl⟩⟩

/-- Settles O50: the registers and the memory are those of O30, and an error leaves them all. -/
theorem nonStoringFrame : Obligations.NonStoringFrame := by
  intro i a b m1 m2 m3 s t hi h
  obtain ⟨hrb, hinq, hout, hmem⟩ := onlyTheirInstructionWritesARegister i s t h
  obtain ⟨hmem, hinq⟩ : t.mem = s.mem ∧ t.inq = s.inq := by
    rcases hi with rfl | rfl | rfl | rfl | rfl <;> exact ⟨hmem, hinq⟩
  refine ⟨fun _ => hmem ▸ rfl, hmem ▸ rfl, hinq, fun hne => ?rb, fun hne => ?lastOut, fault_of_ranWell h,
    fun herr => ?error⟩
  case rb =>
    rcases hi with rfl | rfl | rfl | rfl | rfl
    exacts [hrb, hrb, hrb, absurd rfl hne, hrb]
  case lastOut =>
    rcases hi with rfl | rfl | rfl | rfl | rfl
    exacts [absurd rfl hne, hout, hout, hout, hout]
  case error =>
    obtain ⟨e, rfl⟩ := eq_errorState_of_not_ranWell h herr
    exact ⟨rfl, rfl, rfl⟩

end Sys2Proof.Machine
end

section
/-! The invariant (spec/00_scope.md R10, 10_state.md R21, R25 to R28): it bounds everything an instruction reads, and
every state update keeps it as long as what it writes fits. -/

namespace Sys2Proof.Machine

theorem lookupCell_eq_zero_or_mem (cells : List (Nat × Int)) (a : Nat) :
    lookupCell cells a = 0 ∨ (a, lookupCell cells a) ∈ cells := by
  induction cells with
  | nil => exact .inl rfl
  | cons e rest ih =>
    obtain ⟨b, u⟩ := e
    rw [lookupCell]
    split
    · subst b
      exact .inr List.mem_cons_self
    · exact ih.imp_right (List.mem_cons_of_mem _)

section
variable {s : State} (hinv : s.Inv)
include hinv

theorem State.Inv.read_inW (a : Nat) : inW (s.mem.read a) := by
  have hzero : inW 0 := by decide
  rw [Memory.read]
  split
  · rcases lookupCell_eq_zero_or_mem s.mem.cells a with h | h
    · rwa [h]
    · exact hinv.cells _ h
  · exact hzero

/-- A parameter reads as a value that fits if its raw operand fits. -/
theorem State.Inv.readsAs_inW {p : Param} {v : Int} (hraw : inW p.raw) (h : ReadsAs s p v) : inW v := by
  cases p with
  | immediate x => exact readsAs_immediate.mp h ▸ hraw
  | position a => exact (readsAs_position.mp h).2 ▸ hinv.read_inW _
  | relative o => exact (readsAs_relative.mp h).2 ▸ hinv.read_inW _

/-- What is fetched under the invariant is well-formed, since its cells fit. -/
theorem State.Inv.wellFormed_of_fetchDecode {i : Instr} (h : fetchDecode s = .ok i) : i.WellFormed :=
  wellFormed_of_decode h (hinv.read_inW _) (hinv.read_inW _) (hinv.read_inW _)

/-! ### State updates -/

theorem State.Inv.storeAt {d : Nat} {v : Int} (hd : d < Config.addrLimit) (hv : inW v) : (s.storeAt d v).Inv where
  memory := wf_write hinv.memory d v
  memoryBound := by
    rw [storeAt_mem, len_write]
    exact max_le hinv.memoryBound hd
  cells := fun e he => by
    rcases mem_write he with rfl | he
    · exact hv
    · exact hinv.cells e he
  pc := hinv.pc
  rb := hinv.rb
  queue := hinv.queue
  output := hinv.output
  fault := hinv.fault

theorem State.Inv.continueAt {n : Nat} (hfault : s.fault = none) (hn : n < Config.addrLimit) :
    (s.continueAt n).Inv where
  memory := hinv.memory
  memoryBound := hinv.memoryBound
  cells := hinv.cells
  pc := hn
  rb := hinv.rb
  queue := hinv.queue
  output := hinv.output
  fault := by simp only [State.faultConsistent, continueAt_fault, hfault, continueAt_status]

theorem State.Inv.withQueue {q : List Int} (hq : ∀ v ∈ q, inW v) : ({ s with inq := q } : State).Inv :=
  { hinv with queue := hq }

theorem State.Inv.withRb {r : Int} (hr : inW r) : ({ s with rb := r } : State).Inv :=
  { hinv with rb := hr }

/-- The state after an output: the status and the last output agree. -/
theorem State.Inv.outputState {n : Nat} {v : Int} (hfault : s.fault = none) (hn : n < Config.addrLimit) (hv : inW v) :
    ({ s with pc := n, lastOut := some v, status := some (.ready v) } : State).Inv :=
  { hinv with
    pc := hn
    output := fun _ hw => Option.some.inj hw ▸ hv
    fault := by simp only [State.faultConsistent, hfault] }

theorem State.Inv.haltState {v : Int} (hfault : s.fault = none) (hv : s.lastOut = some v) :
    ({ s with status := some (.halted v) } : State).Inv :=
  { hinv with fault := by simp only [State.faultConsistent, hfault, hv] }

/-- Taking an error records its kind, code and detail at the unchanged `pc` (60_exceptions.md R171). -/
theorem State.Inv.errorState (e : MachineError) : (errorState e s).Inv :=
  { hinv with fault := ⟨rfl, infoFits_errorInfo e, rfl, rfl⟩ }

theorem State.Inv.commit {i : Instr} {t : State} (hfault : s.fault = none) (hwf : i.WellFormed)
    (h : CommitShape s i t) : t.Inv := by
  cases h with
  | store hi hd hv hpc => exact (hinv.storeAt (lt_of_writesTo hd) hv).continueAt hfault hpc
  | input hd hq hpc =>
    obtain ⟨hfront, hrest⟩ := List.forall_mem_cons.mp (hq ▸ hinv.queue)
    exact ((hinv.storeAt (lt_of_writesTo hd) hfront).continueAt hfault hpc).withQueue hrest
  | output hv hpc => exact hinv.outputState hfault hpc (hinv.readsAs_inW (hwf _ List.mem_cons_self) hv)
  | jt _ _ _ hlt => exact hinv.continueAt hfault hlt
  | jf _ _ _ hlt => exact hinv.continueAt hfault hlt
  | arb hr hpc => exact (hinv.continueAt hfault hpc).withRb hr
  | halt hv => exact hinv.haltState hfault hv

end

/-- Settles O25: the decoded instruction is well-formed, so its commit keeps the invariant, and so does an error. -/
theorem stepKeepsTheInvariant : Obligations.StepKeepsTheInvariant := by
  intro s t hinv h
  obtain ⟨hfault, ⟨i, hdecode, hcommit⟩ | ⟨e, rfl⟩⟩ := step_next_shape h
  · exact hinv.commit hfault (hinv.wellFormed_of_fetchDecode hdecode) hcommit
  · exact hinv.errorState e

theorem constructState_inv {program : List Int} (hfits : ∀ v ∈ program, inW v)
    (hlen : program.length ≤ Config.addrLimit) : (constructState program).Inv where
  memory := wf_ofImage program
  memoryBound := hlen
  cells := fun _ he => hfits _ (mem_imageCells he).2.1
  pc := show 0 < Config.addrLimit from addrLimit_eq ▸ by decide
  rb := show inW 0 by decide
  queue := fun _ hv => nomatch hv
  output := fun _ hv => nomatch hv
  fault := trivial

/-- Settles O26: the reset state is that of the empty program. -/
theorem resetHasTheInvariant : Obligations.ResetHasTheInvariant :=
  constructState_inv (program := []) (fun _ hv => nomatch hv) (Nat.zero_le _)

/-- Settles O27: construction checks the image, and `add_input` the value it appends. -/
theorem hostOperationsKeepTheInvariant : Obligations.HostOperationsKeepTheInvariant := by
  refine ⟨fun program s h => ?construct, fun v s t hinv h => ?addInput⟩
  case construct =>
    obtain ⟨hfits, hlen, rfl⟩ := construct_next h
    exact constructState_inv hfits hlen
  case addInput =>
    obtain ⟨hv, rfl⟩ := addInput_next h
    exact hinv.withQueue (List.forall_mem_append.mpr ⟨hinv.queue, List.forall_mem_singleton.mpr hv⟩)

end Sys2Proof.Machine
end

section
/-! The memory length is unobservable (spec/20_memory.md R58): two states that read alike give every operation the same
answer, so a body takes the same path in both and its commits read alike again. -/

namespace Sys2Proof.Machine

section
variable {s s' : State} (h : SameButLength s s')
include h

theorem SameButLength.fetchDecode_eq : fetchDecode s = fetchDecode s' := by
  simp only [fetchDecode, fetch_eq_read, h.pc, h.cells]

theorem SameButLength.resolve_eq (k : Slot) (p : Param) : resolve s k p = resolve s' k p := by
  cases p <;> simp only [resolve, h.rb, h.cells]

theorem SameButLength.writeTarget_eq (k : Slot) (p : Param) : writeTarget s k p = writeTarget s' k p := by
  cases p <;> simp only [writeTarget, h.rb]

theorem SameButLength.nextPc_eq (n : Nat) : nextPc s n = nextPc s' n := by
  rw [nextPc, nextPc, h.pc]

theorem SameButLength.popInput_eq : popInput s = popInput s' := by
  rw [popInput, popInput, h.inq]

theorem SameButLength.jumpNext_eq (taken : Bool) (t : Int) : jumpNext taken t s = jumpNext taken t s' := by
  rw [jumpNext, jumpNext, h.nextPc_eq]

/-- Writing the same cell keeps two states reading alike, wherever their memories end (R43). -/
theorem SameButLength.storeAt (d : Nat) (v : Int) : SameButLength (s.storeAt d v) (s'.storeAt d v) :=
  { h with cells := fun a => by rw [storeAt_mem, storeAt_mem, read_write, read_write, h.cells] }

theorem SameButLength.continueAt (n : Nat) : SameButLength (s.continueAt n) (s'.continueAt n) :=
  { h with pc := rfl, status := rfl }

theorem SameButLength.errorState (e : MachineError) : SameButLength (errorState e s) (errorState e s') :=
  { h with fault := by rw [errorState_fault, errorState_fault, h.pc], status := rfl }

end

/-- Two results of a body that differ in the memory length only: the same error, or states that read alike. -/
inductive SameResult : Except MachineError State → Except MachineError State → Prop where
  | ok {t t' : State} (h : SameButLength t t') : SameResult (.ok t) (.ok t')
  | error (e : MachineError) : SameResult (.error e) (.error e)

theorem sameResult_bind {α : Type} (x : Except MachineError α) {f g : α → Except MachineError State}
    (h : ∀ a, SameResult (f a) (g a)) : SameResult (x >>= f) (x >>= g) := by
  cases x with
  | ok a => exact h a
  | error e => exact .error e

section
variable {s s' : State} (h : SameButLength s s')
include h

theorem sameResult_threeSlot (f : Int → Int → Except MachineError Int) (a b dst : Param) :
    SameResult (threeSlot f a b dst s) (threeSlot f a b dst s') := by
  simp only [threeSlot, h.resolve_eq, h.writeTarget_eq, h.nextPc_eq]
  exact sameResult_bind _ fun _ => sameResult_bind _ fun _ => sameResult_bind _ fun d => sameResult_bind _ fun r =>
    sameResult_bind _ fun n => .ok ((h.storeAt d r).continueAt n)

theorem sameResult_inputBody (dst : Param) : SameResult (inputBody dst s) (inputBody dst s') := by
  simp only [inputBody, h.writeTarget_eq, h.popInput_eq, h.nextPc_eq]
  exact sameResult_bind _ fun d => sameResult_bind _ fun q => sameResult_bind _ fun n =>
    .ok { (h.storeAt d q.1).continueAt n with inq := rfl }

theorem sameResult_outputBody (a : Param) : SameResult (outputBody a s) (outputBody a s') := by
  simp only [outputBody, h.resolve_eq, h.nextPc_eq]
  exact sameResult_bind _ fun _ => sameResult_bind _ fun _ =>
    .ok { h with pc := rfl, lastOut := rfl, status := rfl }

theorem sameResult_jumpWhen (taken : Int → Bool) (a target : Param) :
    SameResult (jumpWhen taken a target s) (jumpWhen taken a target s') := by
  simp only [jumpWhen, h.resolve_eq, h.jumpNext_eq]
  exact sameResult_bind _ fun _ => sameResult_bind _ fun _ => sameResult_bind _ fun n => .ok (h.continueAt n)

theorem sameResult_arbBody (policy : Config.RbNegPolicy) (a : Param) :
    SameResult (arbBody policy a s) (arbBody policy a s') := by
  simp only [arbBody, h.resolve_eq, h.rb, h.nextPc_eq]
  exact sameResult_bind _ fun _ => sameResult_bind _ fun _ => sameResult_bind _ fun _ => sameResult_bind _ fun n =>
    .ok { h.continueAt n with rb := rfl }

theorem sameResult_haltBody : SameResult (haltBody s) (haltBody s') := by
  have hout := h.lastOut
  rw [haltBody, haltBody, ← hout]
  cases s.lastOut with
  | none => exact .error _
  | some v => exact .ok { h with lastOut := rfl, status := rfl }

theorem sameResult_body (i : Instr) : SameResult (body i s) (body i s') := by
  cases i with
  | add a b dst => exact sameResult_threeSlot h _ a b dst
  | mul a b dst => exact sameResult_threeSlot h _ a b dst
  | lt a b dst => exact sameResult_threeSlot h _ a b dst
  | eq a b dst => exact sameResult_threeSlot h _ a b dst
  | input dst m2 m3 => exact sameResult_inputBody h dst
  | output a m2 m3 => exact sameResult_outputBody h a
  | jt a target m3 => exact sameResult_jumpWhen h _ a target
  | jf a target m3 => exact sameResult_jumpWhen h _ a target
  | arb a m2 m3 => exact sameResult_arbBody h _ a
  | hlt m1 m2 m3 => exact sameResult_haltBody h

/-- Two results of a body that read alike end in next states that read alike. -/
theorem finish_of_sameResult {r r' : Except MachineError State} (hr : SameResult r r') :
    ∃ t t', finish s r = .next t ∧ finish s' r' = .next t' ∧ SameButLength t t' := by
  cases hr with
  | ok ht => exact ⟨_, _, rfl, rfl, ht⟩
  | error e => exact ⟨_, _, rfl, rfl, h.errorState e⟩

theorem SameButLength.step (hfault : s.fault = none) :
    ∃ t t', step s = .next t ∧ step s' = .next t' ∧ SameButLength t t' := by
  have hfault' : s'.fault = none := h.fault ▸ hfault
  cases hdecode : fetchDecode s with
  | error e =>
    have hdecode' := h.fetchDecode_eq ▸ hdecode
    exact ⟨_, _, step_of_decode_error hfault hdecode, step_of_decode_error hfault' hdecode', h.errorState e⟩
  | ok i =>
    have hdecode' := h.fetchDecode_eq ▸ hdecode
    rw [step_of_decoded hfault hdecode, step_of_decoded hfault' hdecode', exec_eq_finish_body, exec_eq_finish_body]
    exact finish_of_sameResult h (sameResult_body h i)

end

/-- Settles O12: both states are faulted and refused alike, or neither is and their next states read alike. -/
theorem memoryLengthIsUnobservable : Obligations.MemoryLengthIsUnobservable := by
  intro s s' h
  cases hfault : s.fault with
  | some r =>
    have hstep := step_of_faulted hfault
    have hstep' : step s' = .refused .faulted := step_of_faulted (h.fault ▸ hfault)
    rw [hstep, hstep']
    exact ⟨fun _ ht => (nomatch ht), fun _ hr => hr⟩
  | none =>
    obtain ⟨t, t', hstep, hstep', hsame⟩ := h.step hfault
    rw [hstep, hstep']
    exact ⟨fun u hu => ⟨t', rfl, Host.Outcome.next.inj hu ▸ hsame⟩, fun _ hr => nomatch hr⟩

end Sys2Proof.Machine
end

section
/-! The instructions one by one (spec/42_arith.md to 47_halt.md): each clause is one way the instruction's body ends. -/

namespace Sys2Proof.Machine

theorem nextPc_of_not_advances {s : State} {n : Nat} (h : ¬ Advances s n) :
    nextPc s n = .error (.addressOverflow .pcAdvance (s.pc + n)) :=
  nextPc_eq_error.mpr ⟨Nat.not_lt.mp h, rfl⟩

theorem resolve_of_badAddress {s : State} {p : Param} {v : Int} (h : BadAddress s p v) (k : Slot) :
    resolve s k p = .error (.addressOverflow (.slot k) v) :=
  resolve_eq_error.mpr ⟨v, h, rfl⟩

theorem narrow_of_inW {op r : Int} (h : inW r) : narrow op r = .ok r := narrow_eq_ok.mpr ⟨h, rfl⟩

theorem narrow_of_not_inW {op r : Int} (h : ¬ inW r) : narrow op r = .error (.arithmeticOverflow op r) :=
  narrow_eq_error.mpr ⟨h, rfl⟩

/-- The read path in closed form: the value of the cell at a legal address, or the exact address (40_addressing.md
R80). -/
theorem resolve_position_eq_ite (s : State) (k : Slot) (a : Int) :
    resolve s k (.position a) =
      if 0 ≤ a ∧ a < Config.addrLimit then .ok (s.mem.read a.toNat) else .error (.addressOverflow (.slot k) a) := by
  split
  · exact resolve_eq_ok.mpr (readsAs_position.mpr ⟨‹_›, rfl⟩)
  · exact resolve_of_badAddress ⟨rfl, ‹_›⟩ k

/-- A relative parameter reads what a position parameter of the exact sum reads. -/
theorem resolve_relative_eq_position (s : State) (k : Slot) (o : Int) :
    resolve s k (.relative o) = resolve s k (.position (s.rb + o)) := rfl

/-- Settles O14: position and relative are the check of their exact address, and an immediate is its value. -/
theorem resolveRule : Obligations.ResolveRule := by
  have hlimit : (Config.addrLimit : Int) = 9223372036854775808 := by rw [addrLimit_eq]; rfl
  intro s k x
  rw [← hlimit, resolve_relative_eq_position]
  exact ⟨resolve_position_eq_ite s k x, resolve_position_eq_ite s k (s.rb + x), rfl⟩

/-! ### `add` and `mul` -/

theorem exec_add (a b dst : Param) (s : State) :
    exec (.add a b dst) s = finish s (threeSlot (fun x y => narrow 1 (x + y)) a b dst s) := rfl

theorem exec_mul (a b dst : Param) (s : State) :
    exec (.mul a b dst) s = finish s (threeSlot (fun x y => narrow 2 (x * y)) a b dst s) := rfl

/-- Settles O32: the three-slot body with a sum that fits. -/
theorem addCompletes : Obligations.AddCompletes := fun s a b dst _ _ _ hx hy hd hr hpc =>
  exec_threeSlot_of_ok (exec_add a b dst s) hx hy hd (narrow_of_inW hr) hpc

/-- Settles O33: the three-slot body with a product that fits. -/
theorem mulCompletes : Obligations.MulCompletes := fun s a b dst _ _ _ hx hy hd hr hpc =>
  exec_threeSlot_of_ok (exec_mul a b dst s) hx hy hd (narrow_of_inW hr) hpc

/-- With its operands and its target at hand, a three-slot instruction raises what its result raises (42_arith.md
R112). -/
theorem exec_threeSlot_of_result_error {i : Instr} {f : Int → Int → Except MachineError Int} {a b dst : Param}
    {s : State} (hexec : exec i s = finish s (threeSlot f a b dst s)) {x y : Int} {d : Nat} {e : MachineError}
    (hx : ReadsAs s a x) (hy : ReadsAs s b y) (hd : WritesTo s dst d) (hr : f x y = .error e) :
    exec i s = raises (errorKind e) (errorInfo e) s :=
  exec_threeSlot_of_error hexec (threeSlot_eq_error.mpr (.inr ⟨x, hx, .inr ⟨y, hy, .inr ⟨d, hd, .inl hr⟩⟩⟩))

/-- Settles O34: the operands' errors are those of every three-slot body, then the result's, then the next `pc`'s. -/
theorem addAndMulErrorsInOrder : Obligations.AddAndMulErrorsInOrder := fun s a b dst =>
  have hadd := exec_add a b dst s
  have hmul := exec_mul a b dst s
  ⟨operandErrors_of_threeSlot hadd, operandErrors_of_threeSlot hmul,
    fun _ _ _ hx hy hd hr => exec_threeSlot_of_result_error hadd hx hy hd (narrow_of_not_inW hr),
    fun _ _ _ hx hy hd hr => exec_threeSlot_of_result_error hmul hx hy hd (narrow_of_not_inW hr),
    fun _ _ _ hx hy hd hr hpc => exec_threeSlot_of_not_advances hadd hx hy hd (narrow_of_inW hr) hpc,
    fun _ _ _ hx hy hd hr hpc => exec_threeSlot_of_not_advances hmul hx hy hd (narrow_of_inW hr) hpc⟩

/-! ### `in` -/

/-- Settles O37: no check of the body of `in` fails. -/
theorem inputCompletes : Obligations.InputCompletes := fun _ _ _ _ d v rest hd hq hpc =>
  exec_of_body_ok (inputBody_eq_ok.mpr ⟨d, v, rest, hd, hq, hpc, rfl⟩)

/-- Settles O38: the destination's errors come before the empty queue's, and that before the next `pc`'s. -/
theorem inputErrorsInOrder : Obligations.InputErrorsInOrder := by
  intro s dst m2 m3
  have raised {e : MachineError} := fun h =>
    exec_of_body_error (i := .input dst m2 m3) (s := s) (e := e) (inputBody_eq_error.mpr h)
  refine ⟨fun himm => ?immediateTarget, fun v hbad => ?badTarget, fun d hd hq => ?emptyQueue,
    fun d hd hq hpc => ?pcAdvance⟩
  case immediateTarget => exact raised (.inl (writeTarget_eq_error.mpr (.inl ⟨himm, rfl⟩)))
  case badTarget => exact raised (.inl (writeTarget_eq_error.mpr (.inr ⟨v, hbad, rfl⟩)))
  case emptyQueue => exact raised (.inr ⟨d, hd, .inl (popInput_eq_error.mpr ⟨hq, rfl⟩)⟩)
  case pcAdvance =>
    obtain ⟨v, rest, hcons⟩ := List.exists_cons_of_ne_nil hq
    have hpop : popInput s = .ok (v, rest) := popInput_eq_ok.mpr hcons
    exact raised (.inr ⟨d, hd, .inr ⟨(v, rest), hpop, nextPc_of_not_advances hpc⟩⟩)

/-! ### `jt` and `jf`: what `exec` answers for an instruction that is a conditional jump, taken or not -/

section
variable {i : Instr} {taken : Int → Bool} {a target : Param} {s : State} {c v : Int}
  (hexec : exec i s = finish s (jumpWhen taken a target s))
include hexec

theorem exec_jump_taken (hc : ReadsAs s a c) (hv : ReadsAs s target v) (ht : taken c = true) (hlegal : legalAddr v) :
    exec i s = .next { s with pc := v.toNat, status := none } :=
  hexec.trans (congrArg (finish s) (jumpWhen_eq_ok.mpr ⟨c, v, hc, hv, .inl ⟨ht, hlegal, rfl⟩⟩))

theorem exec_jump_not_taken (hc : ReadsAs s a c) (hv : ReadsAs s target v) (ht : taken c = false)
    (hpc : Advances s 3) : exec i s = .next { s with pc := s.pc + 3, status := none } :=
  hexec.trans (congrArg (finish s) (jumpWhen_eq_ok.mpr ⟨c, v, hc, hv, .inr ⟨ht, hpc, rfl⟩⟩))

theorem exec_jump_of_error {e : MachineError} (h : jumpWhen taken a target s = .error e) :
    exec i s = raises (errorKind e) (errorInfo e) s :=
  hexec.trans (congrArg (finish s) h)

/-- Both slots are resolved before the condition is looked at (41_step.md R102). -/
theorem jumpOperandErrors_of_jump : JumpOperandErrors i a target s :=
  ⟨fun _ hbad =>
    exec_jump_of_error hexec (jumpWhen_eq_error.mpr (.inl (resolve_of_badAddress hbad .one))),
    fun c _ hc hbad =>
      exec_jump_of_error hexec (jumpWhen_eq_error.mpr (.inr ⟨c, hc, .inl (resolve_of_badAddress hbad .two)⟩))⟩

theorem exec_jump_bad_target (hc : ReadsAs s a c) (hv : ReadsAs s target v) (ht : taken c = true)
    (hlegal : ¬ legalAddr v) : exec i s = raises .addressOverflow (.address .target v) s :=
  exec_jump_of_error hexec
    (jumpWhen_eq_error.mpr (.inr ⟨c, hc, .inr ⟨v, hv, jumpNext_eq_error.mpr (.inl ⟨ht, hlegal, rfl⟩)⟩⟩))

theorem exec_jump_of_not_advances (hc : ReadsAs s a c) (hv : ReadsAs s target v) (ht : taken c = false)
    (hpc : ¬ Advances s 3) : exec i s = raises .addressOverflow (.address .pcAdvance (s.pc + 3)) s :=
  exec_jump_of_error hexec
    (jumpWhen_eq_error.mpr (.inr ⟨c, hc, .inr ⟨v, hv, jumpNext_eq_error.mpr (.inr ⟨ht, hpc, rfl⟩)⟩⟩))

end

theorem exec_jt (a target : Param) (m3 : Mode) (s : State) :
    exec (.jt a target m3) s = finish s (jumpWhen (fun c => decide (c ≠ 0)) a target s) := rfl

theorem exec_jf (a target : Param) (m3 : Mode) (s : State) :
    exec (.jf a target m3) s = finish s (jumpWhen (fun c => decide (c = 0)) a target s) := rfl

/-- Settles O40: `jt` is the jump taken on every value but 0. -/
theorem jumpIfTrueCompletes : Obligations.JumpIfTrueCompletes := fun s a target m3 _ _ hc hv =>
  have hexec := exec_jt a target m3 s
  ⟨fun hne hlegal => exec_jump_taken hexec hc hv (decide_eq_true hne) hlegal,
    fun hz hpc => exec_jump_not_taken hexec hc hv (decide_eq_false (not_not.mpr hz)) hpc⟩

/-- Settles O41: `jf` is the jump taken on 0. -/
theorem jumpIfFalseCompletes : Obligations.JumpIfFalseCompletes := fun s a target m3 _ _ hc hv =>
  have hexec := exec_jf a target m3 s
  ⟨fun hz hlegal => exec_jump_taken hexec hc hv (decide_eq_true hz) hlegal,
    fun hne hpc => exec_jump_not_taken hexec hc hv (decide_eq_false hne) hpc⟩

/-- Settles O42: the operands' errors are those of every jump, and its condition decides which later one there is. -/
theorem jumpErrorsInOrder : Obligations.JumpErrorsInOrder := fun s a target m3 =>
  have hjt := exec_jt a target m3 s
  have hjf := exec_jf a target m3 s
  ⟨jumpOperandErrors_of_jump hjt, jumpOperandErrors_of_jump hjf,
    fun _ _ hc hv hne hlegal => exec_jump_bad_target hjt hc hv (decide_eq_true hne) hlegal,
    fun _ _ hc hv hz hlegal => exec_jump_bad_target hjf hc hv (decide_eq_true hz) hlegal,
    fun _ _ hc hv hz hpc => exec_jump_of_not_advances hjt hc hv (decide_eq_false (not_not.mpr hz)) hpc,
    fun _ _ hc hv hne hpc => exec_jump_of_not_advances hjf hc hv (decide_eq_false hne) hpc⟩

/-! ### `arb`, its body under either policy -/

section
variable {policy : Config.RbNegPolicy} {a : Param} {s : State} {v : Int}

theorem finish_arbBody_of_ok (hv : ReadsAs s a v) (hr : inW (s.rb + v))
    (hpolicy : policy = .fault → 0 ≤ s.rb + v) (hpc : Advances s 2) :
    finish s (arbBody policy a s) = .next { s with rb := s.rb + v, pc := s.pc + 2, status := none } :=
  congrArg (finish s) (arbBody_eq_ok.mpr ⟨v, hv, hr, hpolicy, hpc, rfl⟩)

theorem finish_arbBody_of_not_advances (hv : ReadsAs s a v) (hr : inW (s.rb + v))
    (hpolicy : policy = .fault → 0 ≤ s.rb + v) (hpc : ¬ Advances s 2) :
    finish s (arbBody policy a s) = raises .addressOverflow (.address .pcAdvance (s.pc + 2)) s :=
  congrArg (finish s)
    (arbBody_eq_error.mpr (.inr ⟨v, hv, .inr ⟨hr, .inr ⟨hpolicy, nextPc_of_not_advances hpc⟩⟩⟩))

/-- Under `fault` a negative base is an error before the next `pc` is looked at (decision D12). -/
theorem finish_arbBody_of_fault (hv : ReadsAs s a v) (hr : inW (s.rb + v)) (hneg : s.rb + v < 0) :
    finish s (arbBody .fault a s) = raises .addressOverflow (.address .rb (s.rb + v)) s :=
  congrArg (finish s)
    (arbBody_eq_error.mpr (.inr ⟨v, hv, .inr ⟨hr, .inl (checkRb_eq_error.mpr ⟨rfl, hneg, rfl⟩)⟩⟩))

end

theorem exec_arb (a : Param) (m2 m3 : Mode) (s : State) :
    exec (.arb a m2 m3) s = finish s (arbBody Config.rbNegPolicy a s) := rfl

/-- Settles O43: a sum that is not negative is committed under either policy, a negative one as the policy says. -/
theorem adjustRelativeBaseCompletes : Obligations.AdjustRelativeBaseCompletes := by
  intro s a m2 m3 v hv hr hpc
  rw [exec_arb]
  refine ⟨fun hnonneg => finish_arbBody_of_ok hv hr (fun _ => hnonneg) hpc, fun hneg => ?_⟩
  cases Config.rbNegPolicy with
  | allow => exact finish_arbBody_of_ok hv hr (nomatch ·) hpc
  | fault => exact finish_arbBody_of_fault hv hr hneg

/-- Settles O44: the operand, the sum and then the next `pc`, where the policy lets the sum by. -/
theorem adjustRelativeBaseErrorsInOrder : Obligations.AdjustRelativeBaseErrorsInOrder := by
  intro s a m2 m3
  rw [exec_arb]
  refine ⟨fun v hbad => ?operand, fun v hv hr => ?overflow, fun v hv hr hlets hpc => ?pcAdvance⟩
  case operand => exact congrArg (finish s) (arbBody_eq_error.mpr (.inl (resolve_of_badAddress hbad .one)))
  case overflow =>
    exact congrArg (finish s) (arbBody_eq_error.mpr (.inr ⟨v, hv, .inl (narrow_of_not_inW hr)⟩))
  case pcAdvance =>
    have hpolicy : Config.rbNegPolicy = .fault → 0 ≤ s.rb + v := fun hfault =>
      hlets.resolve_right fun hallow => nomatch hallow.symm.trans hfault
    exact finish_arbBody_of_not_advances hv hr hpolicy hpc

/-- Settles O45: the body under each policy, which the proof does not choose. -/
theorem negativeRelativeBaseFollowsThePolicy : Obligations.NegativeRelativeBaseFollowsThePolicy :=
  fun s a m2 m3 _ hv hr hneg =>
    ⟨exec_arb a m2 m3 s, finish_arbBody_of_fault hv hr hneg, finish_arbBody_of_ok hv hr (nomatch ·),
      finish_arbBody_of_not_advances hv hr (nomatch ·)⟩

/-! ### `hlt` -/

theorem exec_hlt_of_lastOut {s : State} {v : Int} (m1 m2 m3 : Mode) (h : s.lastOut = some v) :
    exec (.hlt m1 m2 m3) s = .next { s with status := some (.halted v) } :=
  exec_of_body_ok (haltBody_eq_ok.mpr ⟨v, h, rfl⟩)

/-- Settles O46: the last output alone decides how the body of `hlt` ends. -/
theorem haltCompletes : Obligations.HaltCompletes := fun _ m1 m2 m3 =>
  ⟨fun _ => exec_hlt_of_lastOut m1 m2 m3,
    fun h => exec_of_body_error (i := .hlt m1 m2 m3) (haltBody_eq_error.mpr ⟨h, rfl⟩)⟩

/-- Only `hlt` commits a halt, and it commits nothing but that status. -/
theorem CommitShape.of_halted {i : Instr} {s t : State} {v : Int} (h : CommitShape s i t)
    (hst : t.status = some (.halted v)) :
    (∃ m1 m2 m3, i = .hlt m1 m2 m3) ∧ s.lastOut = some v ∧ t = { s with status := some (.halted v) } := by
  cases h with
  | halt hv =>
    cases hst
    exact ⟨⟨_, _, _, rfl⟩, hv, rfl⟩
  | store | input | output | jt | jf | arb => cases hst

/-- Settles O47: after a halt the memory, `pc` and the last output are what they were, so the same halt is decoded and
gives the same status. -/
theorem haltRepeats : Obligations.HaltRepeats := by
  intro s t v hstep hst
  obtain ⟨hfault, ⟨i, hdecode, hcommit⟩ | ⟨e, rfl⟩⟩ := step_next_shape hstep
  · obtain ⟨⟨m1, m2, m3, rfl⟩, hv, rfl⟩ := hcommit.of_halted hst
    have hagain := step_of_decoded (s := { s with status := some (.halted v) }) hfault hdecode
    exact hagain.trans (exec_hlt_of_lastOut m1 m2 m3 hv)
  · cases hst

/-! ### The write before the next fetch -/

/-- A fetch after a commit that wrote one cell decodes the cells with that write (20_memory.md R54). -/
theorem nextFetchSees_of_write {i : Instr} {n d : Nat} {s t : State} {v : Int} (h : exec i s = .next t)
    (hmem : t.mem = s.mem.write d v) (hpc : t.pc = s.pc + n) : NextFetchSees i n s d v := by
  refine ⟨t, h, hpc, ?_⟩
  simp only [fetchDecode, fetch_eq_read, hmem, hpc, read_write_eq_cellAfterWrite]

/-- Settles O15: each of the five instructions completes with its result written. -/
theorem nextFetchSeesTheWrite : Obligations.NextFetchSeesTheWrite := by
  refine ⟨fun s a b dst x y d hx hy hd hpc => ⟨fun hr => ?add, fun hr => ?mul, ?lt, ?eq⟩,
    fun s dst m2 m3 d v rest hd hq hpc => ?input⟩
  case add => exact nextFetchSees_of_write (addCompletes s a b dst x y d hx hy hd hr hpc) rfl rfl
  case mul => exact nextFetchSees_of_write (mulCompletes s a b dst x y d hx hy hd hr hpc) rfl rfl
  case lt =>
    obtain ⟨-, hcompletes, -⟩ := lessThanRule s a b dst
    exact nextFetchSees_of_write (hcompletes x y d hx hy hd hpc) rfl rfl
  case eq =>
    obtain ⟨-, hcompletes, -⟩ := equalsRule s a b dst
    exact nextFetchSees_of_write (hcompletes x y d hx hy hd hpc) rfl rfl
  case input => exact nextFetchSees_of_write (inputCompletes s dst m2 m3 d v rest hd hq hpc) rfl rfl

end Sys2Proof.Machine
end

section
/-! Which errors a body can come to (spec/60_exceptions.md R170, column "raised by"). -/

namespace Sys2Proof.Machine

/-- An `AddressOverflow` whose value is indeed no legal address. -/
def IsAddressError (e : MachineError) : Prop := ∃ use v, e = .addressOverflow use v ∧ ¬ legalAddr v

section
variable {s : State} {e : MachineError}

theorem isAddressError_of_resolve {k : Slot} {p : Param} (h : resolve s k p = .error e) : IsAddressError e := by
  obtain ⟨v, ⟨-, hv⟩, rfl⟩ := resolve_eq_error.mp h
  exact ⟨_, v, rfl, hv⟩

theorem isAddressError_of_nextPc {n : Nat} (h : nextPc s n = .error e) : IsAddressError e := by
  obtain ⟨hlimit, rfl⟩ := nextPc_eq_error.mp h
  exact ⟨_, _, rfl, fun hlegal => by have := hlegal.2; omega⟩

theorem isAddressError_of_jumpNext {taken : Bool} {v : Int} (h : jumpNext taken v s = .error e) :
    IsAddressError e := by
  rcases jumpNext_eq_error.mp h with ⟨-, hv, rfl⟩ | ⟨-, hpc, rfl⟩
  exacts [⟨_, v, rfl, hv⟩, isAddressError_of_nextPc (nextPc_of_not_advances hpc)]

theorem isAddressError_of_checkRb {policy : Config.RbNegPolicy} {r : Int} (h : checkRb policy r = .error e) :
    IsAddressError e := by
  obtain ⟨-, hneg, rfl⟩ := checkRb_eq_error.mp h
  exact ⟨_, r, rfl, fun hlegal => Int.not_le.mpr hneg hlegal.1⟩

theorem writeTarget_error_cases {k : Slot} {p : Param} (h : writeTarget s k p = .error e) :
    e = .invalidWriteMode k ∨ IsAddressError e := by
  rcases writeTarget_eq_error.mp h with ⟨-, rfl⟩ | ⟨v, ⟨-, hv⟩, rfl⟩
  exacts [.inl rfl, .inr ⟨_, v, rfl, hv⟩]

theorem threeSlot_error_cases {f : Int → Int → Except MachineError Int} {a b dst : Param}
    (h : threeSlot f a b dst s = .error e) :
    e = .invalidWriteMode .three ∨ IsAddressError e ∨ ∃ x y, f x y = .error e := by
  rcases threeSlot_eq_error.mp h with h | ⟨x, -, h | ⟨y, -, h | ⟨d, -, h | ⟨r, -, h⟩⟩⟩⟩
  · exact .inr (.inl (isAddressError_of_resolve h))
  · exact .inr (.inl (isAddressError_of_resolve h))
  · exact (writeTarget_error_cases h).imp_right .inl
  · exact .inr (.inr ⟨x, y, h⟩)
  · exact .inr (.inl (isAddressError_of_nextPc h))

/-- With a result narrowed to a cell, the result's error is an overflow of the exact result (42_arith.md R112). -/
theorem threeSlot_narrow_error_cases {op : Int} {f : Int → Int → Int} {a b dst : Param}
    (h : threeSlot (fun x y => narrow op (f x y)) a b dst s = .error e) :
    e = .invalidWriteMode .three ∨ IsAddressError e ∨ ∃ r, e = .arithmeticOverflow op r ∧ ¬ inW r := by
  refine (threeSlot_error_cases h).imp_right (Or.imp_right fun ⟨x, y, hr⟩ => ?_)
  obtain ⟨hfits, rfl⟩ := narrow_eq_error.mp hr
  exact ⟨_, rfl, hfits⟩

theorem threeSlot_ok_error_cases {f : Int → Int → Int} {a b dst : Param}
    (h : threeSlot (fun x y => .ok (f x y)) a b dst s = .error e) :
    e = .invalidWriteMode .three ∨ IsAddressError e :=
  (threeSlot_error_cases h).imp_right fun h => h.resolve_right fun ⟨_, _, hr⟩ => nomatch hr

theorem inputBody_error_cases {dst : Param} (h : inputBody dst s = .error e) :
    e = .invalidWriteMode .one ∨ IsAddressError e ∨ s.inq = [] ∧ e = .inputExhausted := by
  rcases inputBody_eq_error.mp h with h | ⟨d, -, h | ⟨q, -, h⟩⟩
  · exact (writeTarget_error_cases h).imp_right .inl
  · exact .inr (.inr (popInput_eq_error.mp h))
  · exact .inr (.inl (isAddressError_of_nextPc h))

theorem isAddressError_of_outputBody {a : Param} (h : outputBody a s = .error e) : IsAddressError e := by
  rcases outputBody_eq_error.mp h with h | ⟨v, -, h⟩
  exacts [isAddressError_of_resolve h, isAddressError_of_nextPc h]

theorem isAddressError_of_jumpWhen {taken : Int → Bool} {a target : Param}
    (h : jumpWhen taken a target s = .error e) : IsAddressError e := by
  rcases jumpWhen_eq_error.mp h with h | ⟨c, -, h | ⟨v, -, h⟩⟩
  exacts [isAddressError_of_resolve h, isAddressError_of_resolve h, isAddressError_of_jumpNext h]

theorem arbBody_error_cases {policy : Config.RbNegPolicy} {a : Param} (h : arbBody policy a s = .error e) :
    IsAddressError e ∨ ∃ r, e = .arithmeticOverflow 9 r ∧ ¬ inW r := by
  rcases arbBody_eq_error.mp h with h | ⟨v, -, h | ⟨-, h | ⟨-, h⟩⟩⟩
  · exact .inl (isAddressError_of_resolve h)
  · obtain ⟨hfits, rfl⟩ := narrow_eq_error.mp h
    exact .inr ⟨_, rfl, hfits⟩
  · exact .inl (isAddressError_of_checkRb h)
  · exact .inl (isAddressError_of_nextPc h)

end

/-- A next state that reports an error is the taking of that error, which the instruction's body came to. -/
theorem exec_next_error {i : Instr} {s t : State} {kind : ErrorKind} {code : Nat} {info : ErrorInfo}
    (h : exec i s = .next t) (hst : t.status = some (.error kind code info)) :
    ∃ e, body i s = .error e ∧ kind = errorKind e ∧ info = errorInfo e := by
  rcases exec_next_shape h with hcommit | ⟨e, hbody, rfl⟩
  · have hran := hcommit.ranWell
    rw [State.ranWell, hst] at hran
    cases hran
  · cases hst
    exact ⟨e, hbody, rfl, rfl⟩

/-- Settles O28: the errors of each instruction's body. -/
theorem errorKindsAreRaisedByTheirOpcodes : Obligations.ErrorKindsAreRaisedByTheirOpcodes := by
  intro i s t kind code info h hst
  obtain ⟨e, hbody, rfl, rfl⟩ := exec_next_error h hst
  cases i with
  | add a b dst =>
    obtain rfl | ⟨use, v, rfl, hv⟩ | ⟨r, rfl, hr⟩ := threeSlot_narrow_error_cases hbody
    exacts [rfl, ⟨use, v, rfl, hv⟩, ⟨r, rfl, hr⟩]
  | mul a b dst =>
    obtain rfl | ⟨use, v, rfl, hv⟩ | ⟨r, rfl, hr⟩ := threeSlot_narrow_error_cases hbody
    exacts [rfl, ⟨use, v, rfl, hv⟩, ⟨r, rfl, hr⟩]
  | lt a b dst =>
    obtain rfl | ⟨use, v, rfl, hv⟩ := threeSlot_ok_error_cases hbody
    exacts [rfl, ⟨use, v, rfl, hv⟩]
  | eq a b dst =>
    obtain rfl | ⟨use, v, rfl, hv⟩ := threeSlot_ok_error_cases hbody
    exacts [rfl, ⟨use, v, rfl, hv⟩]
  | input dst m2 m3 =>
    obtain rfl | ⟨use, v, rfl, hv⟩ | ⟨hq, rfl⟩ := inputBody_error_cases hbody
    exacts [rfl, ⟨use, v, rfl, hv⟩, hq]
  | output a m2 m3 =>
    obtain ⟨use, v, rfl, hv⟩ := isAddressError_of_outputBody hbody
    exact ⟨use, v, rfl, hv⟩
  | jt a target m3 =>
    obtain ⟨use, v, rfl, hv⟩ := isAddressError_of_jumpWhen hbody
    exact ⟨use, v, rfl, hv⟩
  | jf a target m3 =>
    obtain ⟨use, v, rfl, hv⟩ := isAddressError_of_jumpWhen hbody
    exact ⟨use, v, rfl, hv⟩
  | arb a m2 m3 =>
    obtain ⟨use, v, rfl, hv⟩ | ⟨r, rfl, hr⟩ := arbBody_error_cases hbody
    exacts [⟨use, v, rfl, hv⟩, ⟨r, rfl, hr⟩]
  | hlt m1 m2 m3 =>
    obtain ⟨hout, rfl⟩ := haltBody_eq_error.mp hbody
    exact hout

/-- Settles O29: the codes compute. -/
theorem errorCodesAreTheTables : Obligations.ErrorCodesAreTheTables := rfl

end Sys2Proof.Machine
end

section
/-! The host's operations (spec/41_step.md R90 to R104, 60_exceptions.md R182, R183): construction, the step call by its
first instruction, and the ring by the operations it is made of. -/

namespace Sys2Proof.Machine

/-! ### Construction -/

theorem construct_of_fits {program : List Int} (hfits : ∀ v ∈ program, inW v)
    (hlen : program.length ≤ Config.addrLimit) : construct program = .next (constructState program) := by
  rw [construct, if_neg (not_not.mpr hfits), if_neg (Nat.not_lt.mpr hlen)]

/-- The image's cells are read back in order (70_reset_and_hazards.md R200). -/
theorem read_ofImage {program : List Int} {x : Nat} (hx : x < program.length) :
    (Memory.ofImage program).read x = program[x] := by
  have hcell := lookupCell_imageCells 0 program x
  rw [Nat.zero_add, List.getD_eq_getElem _ _ hx] at hcell
  exact (if_pos hx).trans hcell

theorem toSequence_ofImage (program : List Int) : (Memory.ofImage program).toSequence = program :=
  List.ext_getElem (length_toSequence _) fun x hx hx' => (getElem_toSequence _ x hx).trans (read_ofImage hx')

/-- Settles O16: construction accepts the image and places it, and the registers are those of reset. -/
theorem constructionCopiesTheProgram : Obligations.ConstructionCopiesTheProgram := fun program hfits hlen =>
  ⟨constructState program, construct_of_fits hfits hlen, toSequence_ofImage program, rfl, rfl, rfl, rfl, rfl, rfl, rfl⟩

/-- Settles O17: the empty image fits. -/
theorem resetIsEmptyConstruction : Obligations.ResetIsEmptyConstruction :=
  ⟨construct_of_fits (program := []) (fun _ hv => nomatch hv) (Nat.zero_le _), rfl, rfl, rfl, rfl, rfl, rfl⟩

/-- Settles O55: the capacity alone decides whether a value that fits is appended. -/
theorem addInputAppendsAtTheBack : Obligations.AddInputAppendsAtTheBack := by
  intro s v hv
  refine ⟨addInput_of_inW hv, fun c => ⟨fun hlt => ?below, fun hle => ?full⟩⟩
  case below =>
    have hroom : hasRoom (some c) s.inq.length = true := decide_eq_true hlt
    rw [addInputUnder, if_neg (not_not.mpr hv), if_pos hroom]
  case full =>
    have hroom : ¬ hasRoom (some c) s.inq.length = true := by simpa [hasRoom] using hle
    rw [addInputUnder, if_neg (not_not.mpr hv), if_neg hroom]

/-! ### The step call -/

/-- Everything a step call with fuel can do first: go on after an instruction without status, return the status of the
instruction, or be refused. -/
theorem stepCall_succ_cases (fuel : Nat) (s : State) :
    (∃ u, step s = .next u ∧ u.status = none ∧ stepCall (fuel + 1) s = stepCall fuel u) ∨
    (∃ u st, step s = .next u ∧ u.status = some st ∧ stepCall (fuel + 1) s = .returned u st) ∨
    stepCall (fuel + 1) s = .refused .faulted := by
  cases hfault : s.fault with
  | some r => exact .inr (.inr (stepCall_of_refused (step_of_faulted hfault)))
  | none =>
    obtain ⟨-, hnext⟩ := everyStepHasANextState
    obtain ⟨u, hstep⟩ := hnext s hfault
    cases hst : u.status with
    | none => exact .inl ⟨u, hstep, hst, stepCall_continues hstep hst⟩
    | some st => exact .inr (.inl ⟨u, st, hstep, hst, stepCall_returns hstep hst⟩)

/-- Settles O51: a recorded fault refuses the step, and otherwise the first instruction's status decides. -/
theorem stepCallFollowsTheLoop : Obligations.StepCallFollowsTheLoop := by
  intro fuel s
  refine ⟨rfl, fun hfault => ?_, fun t hstep => ⟨stepCall_continues hstep, fun st => stepCall_returns hstep⟩⟩
  obtain ⟨r, hr⟩ := Option.ne_none_iff_exists'.mp hfault
  exact stepCall_of_refused (step_of_faulted hr)

/-- Settles O52, by induction on the fuel: more fuel takes the same first instruction. -/
theorem stepCallResultIgnoresExtraFuel : Obligations.StepCallResultIgnoresExtraFuel := by
  intro fuel more s t st h
  induction fuel generalizing s with
  | zero => cases h
  | succ fuel ih =>
    rw [Nat.add_right_comm]
    rcases stepCall_succ_cases fuel s with ⟨u, hstep, hst, hcall⟩ | ⟨u, st', hstep, hst, hcall⟩ | hcall
    · rw [stepCall_continues hstep hst]
      exact ih u (hcall ▸ h)
    · rw [stepCall_returns hstep hst, ← hcall]
      exact h
    · rw [hcall] at h
      cases h

/-- What a step call returns is the status of the last instruction it ran. -/
theorem exists_last_step_of_returned {fuel : Nat} {s t : State} {st : Status}
    (h : stepCall fuel s = .returned t st) : ∃ s', step s' = .next t ∧ t.status = some st := by
  induction fuel generalizing s with
  | zero => cases h
  | succ fuel ih =>
    rcases stepCall_succ_cases fuel s with ⟨u, -, -, hcall⟩ | ⟨u, st', hstep, hst, hcall⟩ | hcall
    · exact ih (hcall ▸ h)
    · rw [hcall] at h
      cases h
      exact ⟨s, hstep, hst⟩
    · rw [hcall] at h
      cases h

/-- Settles O53: the last instruction committed its output or its halt, or took the error it reports. -/
theorem returnedStatusDescribesTheState : Obligations.ReturnedStatusDescribesTheState := by
  intro fuel s t st h
  obtain ⟨s', hstep, hst⟩ := exists_last_step_of_returned h
  obtain ⟨hfault, ⟨i, -, hcommit⟩ | ⟨e, rfl⟩⟩ := step_next_shape hstep
  · have hfault' : t.fault = none := hcommit.fault_eq.trans hfault
    rcases hcommit.status_cases with hst' | ⟨v, hout, hst' | hst'⟩ <;> rw [hst'] at hst <;> cases hst
    · exact ⟨hout, hfault'⟩
    · exact ⟨hout, hfault'⟩
  · cases hst
    exact ⟨rfl, rfl⟩

/-! ### The inputs a step call takes -/

theorem inputStored_of_not_ranWell {s t : State} (h : t.ranWell = false) : inputStored s t = [] := by
  rw [inputStored]
  split
  · rw [h, if_neg Bool.false_ne_true]
  · rfl

/-- A decoded instruction that is no `in` stores no input. -/
theorem inputStored_of_not_input {s t : State} {i : Instr} (hdecode : fetchDecode s = .ok i)
    (hi : ∀ dst m2 m3, i ≠ .input dst m2 m3) : inputStored s t = [] := by
  rw [inputStored, hdecode]
  split
  · exact absurd (Except.ok.inj ‹_›) (hi _ _ _)
  · rfl

/-- An `in` that ran well stored what its destination now holds (43_io.md R120). -/
theorem inputStored_of_input {s t : State} {dst : Param} {m2 m3 : Mode} {d : Nat}
    (hdecode : fetchDecode s = .ok (.input dst m2 m3)) (hran : t.ranWell = true) (hd : WritesTo s dst d) :
    inputStored s t = [t.mem.read d] := by
  rw [inputStored, hdecode]
  simp only [hran, if_true, show cellOf s dst = some d from hd, Option.map_some, Option.toList_some]

/-- The queue before a commit is what the instruction stored as input, followed by the queue after it. -/
theorem CommitShape.inq_eq {i : Instr} {s t : State} (hdecode : fetchDecode s = .ok i) (h : CommitShape s i t) :
    s.inq = inputStored s t ++ t.inq := by
  have hran := h.ranWell
  cases h with
  | @input dst m2 m3 d v rest hd hq =>
    rw [inputStored_of_input hdecode hran hd, hq, continueAt_mem, storeAt_mem, read_write, if_pos rfl]
    rfl
  | store hi =>
    rw [inputStored_of_not_input hdecode (by rcases hi with rfl | rfl | rfl | rfl <;> exact fun _ _ _ => nofun)]
    rfl
  | output | jt | jf | arb | halt =>
    rw [inputStored_of_not_input hdecode fun _ _ _ => nofun]
    rfl

theorem step_inq_eq {s t : State} (h : step s = .next t) : s.inq = inputStored s t ++ t.inq := by
  obtain ⟨-, ⟨i, hdecode, hcommit⟩ | ⟨e, rfl⟩⟩ := step_next_shape h
  · exact hcommit.inq_eq hdecode
  · rw [inputStored_of_not_ranWell (errorState_ranWell e s)]
    rfl

theorem inputsStored_continues {fuel : Nat} {s u : State} (h : step s = .next u) (hst : u.status = none) :
    inputsStored (fuel + 1) s = inputStored s u ++ inputsStored fuel u := by
  simp only [inputsStored, h, hst]

theorem inputsStored_returns {fuel : Nat} {s u : State} {st : Status} (h : step s = .next u)
    (hst : u.status = some st) : inputsStored (fuel + 1) s = inputStored s u := by
  simp only [inputsStored, h, hst, List.append_nil]

/-- A step call that was not refused took the stored inputs from the front of the queue, and left the rest. -/
theorem inq_eq_of_stepCall {fuel : Nat} {s t : State}
    (h : (∃ st, stepCall fuel s = .returned t st) ∨ stepCall fuel s = .noResult t) :
    s.inq = inputsStored fuel s ++ t.inq := by
  induction fuel generalizing s with
  | zero =>
    obtain ⟨st, h⟩ | h := h
    · cases h
    · cases h
      rfl
  | succ fuel ih =>
    rcases stepCall_succ_cases fuel s with ⟨u, hstep, hst, hcall⟩ | ⟨u, st', hstep, hst, hcall⟩ | hcall
    · rw [hcall] at h
      rw [inputsStored_continues hstep hst, List.append_assoc, ← ih h]
      exact step_inq_eq hstep
    · rw [hcall] at h
      obtain ⟨st, h⟩ | h := h <;> cases h
      rw [inputsStored_returns hstep hst]
      exact step_inq_eq hstep
    · rw [hcall] at h
      obtain ⟨st, h⟩ | h := h <;> cases h

/-- Settles O54, by induction on the fuel: each instruction takes from the queue what it stores. -/
theorem stepCallTakesInputsInOrder : Obligations.StepCallTakesInputsInOrder := fun _ _ _ =>
  ⟨fun st h => inq_eq_of_stepCall (.inl ⟨st, h⟩), fun h => inq_eq_of_stepCall (.inr h)⟩

/-! ### The amplifier ring -/

section
variable {program : List Int} (hfits : ∀ v ∈ program, inW v) (hlen : program.length ≤ Config.addrLimit)
include hfits hlen

theorem ringCpu_of_fits {ph : Int} (hph : inW ph) :
    ringCpu program ph = .ok { constructState program with inq := [ph] } := by
  rw [ringCpu, construct_of_fits hfits hlen]
  simp only [addInput_of_inW hph]
  rfl

theorem ringCpus_of_fits {phs : List Int} (hphs : ∀ v ∈ phs, inW v) :
    ringCpus program phs = .ok (phs.map fun p => { constructState program with inq := [p] }) := by
  induction phs with
  | nil => rfl
  | cons ph phs ih =>
    obtain ⟨hph, hrest⟩ := List.forall_mem_cons.mp hphs
    rw [ringCpus, ringCpu_of_fits hfits hlen hph, ih hrest]
    rfl

theorem ringSetup_of_fits {ph : Int} {phs : List Int} (hphs : ∀ v ∈ ph :: phs, inW v) :
    ringSetup program (ph :: phs) =
      .ok ⟨{ constructState program with inq := [ph, 0] } ::
        phs.map (fun p => { constructState program with inq := [p] }), 0,
        List.replicate (phs.length + 1) none⟩ := by
  have hzero : inW 0 := by decide
  rw [ringSetup, ringCpus_of_fits hfits hlen hphs]
  simp [bind, Except.bind, addInput_of_inW hzero, List.replicate_succ, Function.comp_def]

end

/-- Settles O56: every construction and every push of the setup is of values that fit. -/
theorem ringSetupQueuesPhasesAndSignal : Obligations.RingSetupQueuesPhasesAndSignal :=
  fun _ _ _ hfits hlen hphs => ⟨_, ringSetup_of_fits hfits hlen hphs, rfl, by simp, rfl, rfl⟩

/-- Forwarding in a ring that is not empty appends the value to the queue of the next in order and moves on to it. -/
theorem ringForward_of_inW {r : Ring} {v : Int} (hne : 0 < r.cpus.length) (hv : inW v) :
    ∃ u, r.cpus[(r.index + 1) % r.cpus.length]? = some u ∧ ringForward r v = .running
      { r with cpus := r.cpus.set ((r.index + 1) % r.cpus.length) { u with inq := u.inq ++ [v] },
               index := (r.index + 1) % r.cpus.length } := by
  have hget := List.getElem?_eq_getElem (Nat.mod_lt (r.index + 1) hne)
  refine ⟨_, hget, ?_⟩
  simp only [ringForward, hget, addInput_of_inW hv]

section
variable {fuel : Nat} {r : Ring} {s t : State} (hs : r.cpus[r.index]? = some s)
include hs

theorem ringPass_of_ready {v : Int} (h : stepCall fuel s = .returned t (.ready v)) :
    ringPass fuel r = ringForward { r with cpus := r.cpus.set r.index t } v := by
  simp only [ringPass, hs, h]

theorem ringPass_of_halted {v : Int} (h : stepCall fuel s = .returned t (.halted v)) :
    ringPass fuel r =
      if r.index + 1 = r.cpus.length then
        .stopped { r with cpus := r.cpus.set r.index t, final := r.final.set r.index (some v) } v
      else ringForward { r with cpus := r.cpus.set r.index t, final := r.final.set r.index (some v) } v := by
  simp only [ringPass, hs, h]

theorem ringPass_of_error {kind : ErrorKind} {code : Nat} {info : ErrorInfo}
    (h : stepCall fuel s = .returned t (.error kind code info)) :
    ringPass fuel r = .failed { r with cpus := r.cpus.set r.index t } kind code info := by
  simp only [ringPass, hs, h]

/-- A ring with a state at its index is not empty, and keeps its length when that state is replaced. -/
theorem ring_length_set_pos : 0 < (r.cpus.set r.index t).length := by
  rw [List.length_set]
  exact Nat.zero_lt_of_lt (List.getElem?_eq_some_iff.mp hs).1

end

/-- Settles O57: the pass is what the returned status makes of it, and forwarding goes to the next in order. -/
theorem ringForwardsOrStops : Obligations.RingForwardsOrStops := by
  intro fuel r s t hs
  refine ⟨fun v hv h => ?ready, fun v hv h hlast => ?halted, fun v h hlast => ?stopped,
    fun kind code info h => ringPass_of_error hs h⟩
  case ready =>
    rw [ringPass_of_ready hs h]
    simpa only [List.length_set] using
      ringForward_of_inW (r := { r with cpus := r.cpus.set r.index t }) (ring_length_set_pos hs) hv
  case halted =>
    rw [ringPass_of_halted hs h, if_neg hlast]
    simpa only [List.length_set] using
      ringForward_of_inW (r := { r with cpus := r.cpus.set r.index t, final := r.final.set r.index (some v) })
        (ring_length_set_pos hs) hv
  case stopped => rw [ringPass_of_halted hs h, if_pos hlast]

end Sys2Proof.Machine
end
